-- ==== Sys2Proof/Word.lean ====
section
/-! DEFINITION. The word types of RSCORE's ports and tables (00_scope.md R5, R8; 30_encoding.md R34, R35, R39). -/

namespace Sys2Proof

/-- A field element ("symbol") as it stands in a table and on a port: W = 16 bits, zero-extended from R bits
(R5, R26). Bit b is the coefficient of x^b (R7). -/
abbrev Elem := BitVec 16

/-- An entry of the logarithm table that holds a value: 16 bits (R16). -/
abbrev LogValue := BitVec 16

/-- A primitive-polynomial constant, leading bit r included: r + 1 bits, at most 17 (R12). -/
abbrev Poly := BitVec 17

/-- The command word CW (R35). -/
abbrev CommandWord := BitVec 64

/-- The response word RW (R39). -/
abbrev ResponseWord := BitVec 64

end Sys2Proof
end

