-- ==== Sys2Proof/Config.lean ====
section
/-! DEFINITION. The implementation parameters of RSCORE (00_scope.md R5, R6; 10_state.md R12; 92_eei_decisions.md,
"Open parameters"), the condition on the PRIM table, and the free values of a reset move (70_reset_and_hazards.md R75). -/

namespace Sys2Proof

/-- Least field order accepted (R5, the source's "integer in [2,16]"). -/
def rMin : Nat := 2

/-- Greatest field order accepted (R5). -/
def rMax : Nat := 16

/-- PRIM, the table of 15 primitive-polynomial constants, one field per r = 2 .. 16 (R12). -/
structure PrimTable where
  p2 : Poly
  p3 : Poly
  p4 : Poly
  p5 : Poly
  p6 : Poly
  p7 : Poly
  p8 : Poly
  p9 : Poly
  p10 : Poly
  p11 : Poly
  p12 : Poly
  p13 : Poly
  p14 : Poly
  p15 : Poly
  p16 : Poly
deriving DecidableEq, Repr

/-- The default table of R12. Entries 2 and 10 are fixed by the source; the other 13 are PRESUMED, taken by the
spec itself from general knowledge (93_implementation_defined.md G1; log 2, unsafe for concrete values at those r). -/
def PrimTable.standard : PrimTable :=
  { p2 := 0x7, p3 := 0xB, p4 := 0x13, p5 := 0x25, p6 := 0x43, p7 := 0x89, p8 := 0x11D, p9 := 0x211, p10 := 0x409,
    p11 := 0x805, p12 := 0x1053, p13 := 0x201B, p14 := 0x4443, p15 := 0x8003, p16 := 0x1100B }

/-- The parameters a block is built with (R5): the PRIM table (D5) and STRICT_N, whether ENCINIT refuses
N > 2^r - 1 (D3). No step changes them. -/
structure Config where
  prim : PrimTable
  strictN : Bool
deriving DecidableEq, Repr

/-- The defaults the spec gives its two open parameters (R5; log 2). -/
def Config.standard : Config := { prim := PrimTable.standard, strictN := true }

/-- What a reset move leaves in the registers and tables that R75 calls unspecified, each within its width. -/
structure Unspecified where
  r : BitVec 5
  exp : List Elem
  log : List (Option LogValue)
  k : BitVec 16
  s : BitVec 16
  n : BitVec 18
  gen : List Elem
deriving DecidableEq, Repr, Inhabited

/-- FREE VALUE: what the unspecified state holds after the reset move with a given number (R75, U3; log 5).
It has no body: nothing can be proved of it. -/
opaque Config.afterReset : Nat → Unspecified

end Sys2Proof
end

