-- ==== Sys2Proof/Syntax.lean ====
section
/-! DEFINITION. The commands of RSCORE, one constructor per row of spec/opcode_table.json (30_encoding.md R38),
operands in the order of the assembler syntax (R41), each as wide as the field of the command word that carries it (R35). -/

namespace Sys2Proof

/-- A command term. Operands are unsigned field values (R35, R36); the payload of ENCPAR is part of its term (R37). -/
inductive Instr where
  /-- `gfinit r` (R46). -/
  | gfinit (r : BitVec 5)
  /-- `gfexp x` (R47). -/
  | gfexp (x : BitVec 32)
  /-- `gfmul x, y` (R48). -/
  | gfmul (x y : Elem)
  /-- `encinit k, s, r` (R58). -/
  | encinit (k s : BitVec 16) (r : BitVec 5)
  /-- `encpar len, [m0, m1, ...]` (R61). -/
  | encpar (len : BitVec 32) (m : List Elem)
  /-- `rdexp i` (R49). -/
  | rdexp (i : BitVec 32)
  /-- `rdlog x` (R50). -/
  | rdlog (x : BitVec 32)
  /-- `rdgen j` (R57). -/
  | rdgen (j : BitVec 32)
deriving DecidableEq, Repr

end Sys2Proof
end

