-- ==== Sys2Proof/WellFormed.lean ====
section
/-! DEFINITION. Well-formedness of a command term (30_encoding.md R37). -/

namespace Sys2Proof

/-- A term is well formed when its payload has exactly LEN words: R37 makes "payload length = LEN" part of the
well-formedness of a command term. Every other operand range is the range of its field type (R35). -/
def Instr.wf : Instr → Bool
  | .gfinit _ => true
  | .gfexp _ => true
  | .gfmul _ _ => true
  | .encinit _ _ _ => true
  | .encpar len m => m.length == len.toNat
  | .rdexp _ => true
  | .rdlog _ => true
  | .rdgen _ => true

end Sys2Proof
end

