-- ==== Sys2Proof/Decode.lean ====
section
/-! DEFINITION. Command encoding: fields, decoder, encoder, and the opcode map as data (30_encoding.md R34 to R38, R40). -/

namespace Sys2Proof

/-! ### Fields of the command word (R35) -/

/-- OP = CW[63:60]. -/
def cwOp (cw : CommandWord) : BitVec 4 := cw.extractLsb' 60 4

/-- Z = CW[59:37]. -/
def cwZ (cw : CommandWord) : BitVec 23 := cw.extractLsb' 37 23

/-- A = CW[36:32]. -/
def cwA (cw : CommandWord) : BitVec 5 := cw.extractLsb' 32 5

/-- B = CW[31:16]. -/
def cwB (cw : CommandWord) : BitVec 16 := cw.extractLsb' 16 16

/-- C = CW[15:0]. -/
def cwC (cw : CommandWord) : BitVec 16 := cw.extractLsb' 0 16

/-- X = CW[31:0], the same 32 bits as B : C. -/
def cwX (cw : CommandWord) : BitVec 32 := cw.extractLsb' 0 32

/-- How many payload words follow a command word: LEN of them when OP = 0x5, legal or not, else none (R34, R40). -/
def payloadLength (cw : CommandWord) : Nat := if cwOp cw = 0x5 then (cwX cw).toNat else 0

/-! ### Decoder -/

/-- Why a word is illegal (R40 (a), (b), (c)). All three are answered alike, with IllegalCommand (log 11). -/
inductive DecodeError where
  /-- (a): OP is 0x0 or in 0x9 .. 0xF. -/
  | reservedOpcode
  /-- (b): Z is not zero. -/
  | reservedField
  /-- (c): a field that the format says carries no operand is not zero. -/
  | unusedOperand
deriving DecidableEq, Repr

/-- Accept an instruction when the reserved field and the format's unused fields are zero (R40 (b), (c)). -/
def checkFields (z unused : Bool) (i : Instr) : Except DecodeError Instr :=
  if !z then .error .reservedField else if !unused then .error .unusedOperand else .ok i

/-- The instruction a command word and its payload stand for, total on every word (R36, R38, R40).
FR leaves B and C unused, FX and FBC leave A unused, FABC uses all three. -/
def decode (cw : CommandWord) (payload : List Elem) : Except DecodeError Instr :=
  let z := cwZ cw == 0
  let a0 := cwA cw == 0
  match (cwOp cw).toNat with
  | 1 => checkFields z (cwB cw == 0 && cwC cw == 0) (.gfinit (cwA cw))
  | 2 => checkFields z a0 (.gfexp (cwX cw))
  | 3 => checkFields z a0 (.gfmul (cwB cw) (cwC cw))
  | 4 => checkFields z true (.encinit (cwB cw) (cwC cw) (cwA cw))
  | 5 => checkFields z a0 (.encpar (cwX cw) payload)
  | 6 => checkFields z a0 (.rdexp (cwX cw))
  | 7 => checkFields z a0 (.rdlog (cwX cw))
  | 8 => checkFields z a0 (.rdgen (cwX cw))
  | _ => .error .reservedOpcode

/-! ### Encoder -/

/-- `CW = (OP << 60) | (A << 32) | (B << 16) | C` (R36). -/
def assemble (op : BitVec 4) (a : BitVec 5) (b c : BitVec 16) : CommandWord :=
  (op.setWidth 64 <<< 60) ||| (a.setWidth 64 <<< 32) ||| (b.setWidth 64 <<< 16) ||| c.setWidth 64

/-- Format FX: X in the place of B : C (R35, R36). -/
def assembleX (op : BitVec 4) (x : BitVec 32) : CommandWord :=
  assemble op 0 (x.extractLsb' 16 16) (x.extractLsb' 0 16)

/-- The command word of an instruction, written from the formats of R36 and the opcodes of R38. -/
def encodeWord : Instr → CommandWord
  | .gfinit r => assemble 0x1 r 0 0
  | .gfexp x => assembleX 0x2 x
  | .gfmul x y => assemble 0x3 0 x y
  | .encinit k s r => assemble 0x4 r k s
  | .encpar len _ => assembleX 0x5 len
  | .rdexp i => assembleX 0x6 i
  | .rdlog x => assembleX 0x7 x
  | .rdgen j => assembleX 0x8 j

/-- The payload words that follow an instruction's command word, m[0] first (R37). -/
def encodePayload : Instr → List Elem
  | .gfinit _ => []
  | .gfexp _ => []
  | .gfmul _ _ => []
  | .encinit _ _ _ => []
  | .encpar _ m => m
  | .rdexp _ => []
  | .rdlog _ => []
  | .rdgen _ => []

/-- All the words of an instruction: its command word and its payload (R34). -/
def encode (i : Instr) : CommandWord × List Elem := (encodeWord i, encodePayload i)

/-! ### The opcode map of R38 as data -/

/-- The mask and match words of R38. -/
structure OpRow where
  mask : CommandWord
  pattern : CommandWord
deriving DecidableEq, Repr

/-- "a word w selects the command when (w & mask) == match" (R38). -/
def OpRow.selects (row : OpRow) (w : CommandWord) : Bool := w &&& row.mask == row.pattern

/-- The row of R38 that an instruction belongs to. -/
def opRow : Instr → OpRow
  | .gfinit _ => { mask := 0xFFFFFFE0FFFFFFFF, pattern := 0x1000000000000000 }
  | .gfexp _ => { mask := 0xFFFFFFFF00000000, pattern := 0x2000000000000000 }
  | .gfmul _ _ => { mask := 0xFFFFFFFF00000000, pattern := 0x3000000000000000 }
  | .encinit _ _ _ => { mask := 0xFFFFFFE000000000, pattern := 0x4000000000000000 }
  | .encpar _ _ => { mask := 0xFFFFFFFF00000000, pattern := 0x5000000000000000 }
  | .rdexp _ => { mask := 0xFFFFFFFF00000000, pattern := 0x6000000000000000 }
  | .rdlog _ => { mask := 0xFFFFFFFF00000000, pattern := 0x7000000000000000 }
  | .rdgen _ => { mask := 0xFFFFFFFF00000000, pattern := 0x8000000000000000 }

/-- The eight rows of R38 in its order. -/
def opRows : List OpRow :=
  [opRow (.gfinit 0), opRow (.gfexp 0), opRow (.gfmul 0 0), opRow (.encinit 0 0 0), opRow (.encpar 0 []),
    opRow (.rdexp 0), opRow (.rdlog 0), opRow (.rdgen 0)]

/-! ### Words as numbers, bit 0 the least significant bit of the command word -/

/-- The command word of a packet given as one number: its low 64 bits. -/
def wordOfBits (nbits w : Nat) : CommandWord := BitVec.ofNat 64 (w % 2 ^ nbits)

/-- The payload of a packet given as one number: 16-bit words counting on from bit 64, every bit from nbits up zero.
There are exactly as many as the command word asks for. -/
def payloadOfBits (nbits w : Nat) : List Elem :=
  (List.range (payloadLength (wordOfBits nbits w))).map fun t => BitVec.ofNat 16 (w % 2 ^ nbits / 2 ^ (64 + 16 * t))

/-- The instruction the decoder reads from a packet given as one number (log 9). -/
def decodeTableWord (nbits w : Nat) : Option Instr :=
  match decode (wordOfBits nbits w) (payloadOfBits nbits w) with
  | .ok i => some i
  | .error _ => none

/-- A packet given as one number has as many payload words as its command word asks for (R34, R37). -/
theorem payloadOfBits_length (nbits w : Nat) :
    (payloadOfBits nbits w).length = payloadLength (wordOfBits nbits w) := by
  simp [payloadOfBits]

end Sys2Proof
end

