-- ==== Sys2Proof/Machine/State.lean ====
section
/-! DEFINITION. The state of RSCORE (10_state.md R11 to R20, R24), its packets and responses (30_encoding.md R34, R37,
R39), the host's moves (10_state.md R11), and the ways a step can stop. -/

namespace Sys2Proof.Machine

open Sys2Proof

/-! ### The ports -/

/-- A command packet (R34): a command word and as many payload words as R34 and R40 give it. A packet with another
number is no packet but a framing error of the transport (R37, U17), so none can be written down (log 7). -/
structure Packet where
  cw : CommandWord
  payload : List Elem
  framed : payload.length = payloadLength cw
deriving DecidableEq, Repr

/-- A move of the host (R11, D25): issue one packet, or assert reset (R75). Both happen when the block is idle. -/
inductive HostMove where
  | command (p : Packet)
  | reset
deriving DecidableEq, Repr

/-- The six statuses, and no other (R39, R64, U15). -/
inductive Status where
  | ok
  | configError
  | invalidArgument
  | operandRange
  | noContext
  | illegalCommand
deriving DecidableEq, Repr

/-- A response packet (R34, R39): STATUS, VAL and the payload of parity symbols. -/
structure Response where
  status : Status
  val : BitVec 32
  payload : List Elem
deriving DecidableEq, Repr

/-! ### The contexts (R10, R11) -/

/-- The field context: R, EXP and LOG, guarded by FVALID (R13, R15, R16). LOG[x] is `none` where the entry holds no
value, as LOG[0] does in `State.reset` and in every table FieldBuild leaves (R16, U1; log 3). After a reset move all of LOG,
entry 0 with it, is a free value (DESIGN CHOICE, log 5). -/
structure FieldContext where
  r : Nat
  exp : List Elem
  log : List (Option LogValue)
deriving DecidableEq, Repr

/-- The encoder context: K, S, N and GEN, guarded by EVALID (R17, R19). -/
structure EncoderContext where
  k : Nat
  s : Nat
  n : Nat
  gen : List Elem
deriving DecidableEq, Repr

/-- Everything RSCORE holds between two commands (R11), and the model's own fields: STRICT_N beside PRIM in `cfg`,
the host's moves still to come, the responses given so far (oldest first), and the number of reset moves made. -/
structure State where
  cfg : Config
  field : FieldContext
  fvalid : Bool
  enc : EncoderContext
  evalid : Bool
  inbox : List HostMove
  outbox : List Response
  resets : Nat
deriving DecidableEq, Repr

/-- Ways a step stops with a fault. Neither is in the hardware: both are the model's own alarm, and both are safe. -/
inductive Fault where
  /-- Raised by `logAt` on an entry of LOG that holds no value, LOG[0] above all (R16, R77, U1). Safe: the model
  stops where the hardware would use a value nobody may rely on. -/
  | sentinelRead
  /-- Raised by `readEntry` and `writeEntry` on an index outside a table (R27 says no rule forms one). Safe: the model
  stops, in states that no run reaches. -/
  | tableIndex
deriving DecidableEq, Repr

/-- Ways a step refuses. -/
inductive Refusal where
  /-- Raised by an arm of `exec` that has no meaning yet, by name. Safe. No arm does so in this model. -/
  | notModelled (mnemonic : String)
deriving DecidableEq, Repr

/-- A block with given parameters right after power-on: both flags 0 (R24). Everything else R24 leaves unspecified;
the model names zero for it, the tables of the lengths R15, R16 and R19 give for R = 0 and S = 0
(DESIGN CHOICE, log 4, unsafe). -/
def State.resetWith (cfg : Config) : State :=
  { cfg := cfg
    field := { r := 0, exp := [0], log := [none] }
    fvalid := false
    enc := { k := 0, s := 0, n := 0, gen := [0] }
    evalid := false
    inbox := []
    outbox := []
    resets := 0 }

/-- The machine right after reset, with the spec's default parameters (R5, R24; log 2). -/
def State.reset : State := State.resetWith Config.standard

end Sys2Proof.Machine
end

