-- ==== Sys2Proof/Machine/Ops.lean ====
section
/-! DEFINITION. The named operations over tables, responses and the field context: table reads and writes (00_scope.md
R9; 20_memory.md R27, R28), responding and failing (60_exceptions.md R64, R70), and the helpers FieldBuild, Exp, Log
and Mul (40_field.md R42 to R45). -/

namespace Sys2Proof.Machine

open Sys2Proof

/-! ### Loops and tables (R9) -/

/-- `for i = a .. b`: every integer from a to b upward, none when a > b. -/
def upTo (a b : Nat) : List Nat := List.range' a (b + 1 - a)

/-- `for i = a down to b`: downward, none when a < b. -/
def downTo (a b : Nat) : List Nat := (upTo b a).reverse

/-- Read one whole entry of a table. -/
def readEntry {α : Type} (t : List α) (i : Nat) : Except Fault α :=
  match t[i]? with
  | some v => .ok v
  | none => .error .tableIndex

/-- Write one whole entry of a table. -/
def writeEntry {α : Type} (t : List α) (i : Nat) (v : α) : Except Fault (List α) :=
  if i < t.length then .ok (t.set i v) else .error .tableIndex

/-! ### Responses (R39, R64, R70) -/

/-- The code of a status, RW[63:60] (R39). -/
def Status.code : Status → BitVec 4
  | .ok => 0
  | .configError => 1
  | .invalidArgument => 2
  | .operandRange => 3
  | .noContext => 4
  | .illegalCommand => 5

/-- `RW = (STATUS << 60) | VAL` (R39). -/
def Response.word (r : Response) : ResponseWord := (r.status.code.setWidth 64 <<< 60) ||| r.val.setWidth 64

/-- The response of `respond(v, payload)` (R9). -/
def okResponse (v : BitVec 32) (payload : List Elem) : Response := { status := .ok, val := v, payload := payload }

/-- The response of `fail <Status>`: VAL 0 and no payload (R39, R70). -/
def failResponse (st : Status) : Response := { status := st, val := 0, payload := [] }

/-- Give a response: nothing of the block changes. -/
def State.respond (s : State) (r : Response) : State := { s with outbox := s.outbox ++ [r] }

/-- Taking a failure, the one shared operation (R70): the command ends with the status, and no state element is
written. There is no handler, no vector and nothing to return from (R70, R71). -/
def fail (st : Status) (s : State) : Host.Outcome State Fault Refusal := .next (s.respond (failResponse st))

/-- End a read-only command with what its rule computed. -/
def finish (s : State) : Except Fault Response → Host.Outcome State Fault Refusal
  | .ok r => .next (s.respond r)
  | .error f => .fault f

/-! ### FieldBuild (R42) -/

/-- PRIM[r] (R12, R25). Only r = 2 .. 16 is ever asked for: the callers check r (R46, R58). -/
def primEntry (t : PrimTable) (r : Nat) : Poly :=
  match r with
  | 2 => t.p2
  | 3 => t.p3
  | 4 => t.p4
  | 5 => t.p5
  | 6 => t.p6
  | 7 => t.p7
  | 8 => t.p8
  | 9 => t.p9
  | 10 => t.p10
  | 11 => t.p11
  | 12 => t.p12
  | 13 => t.p13
  | 14 => t.p14
  | 15 => t.p15
  | 16 => t.p16
  | _ => 0

/-- `step(p)` of R42: shift left by one bit and, when bit r-1 of p was set, XOR with PRIM[r]. Computed on 17 bits, so
that no bit is lost before the XOR (D6). -/
def alphaStep (poly : Poly) (r : Nat) (p : Elem) : Elem :=
  let v := p.setWidth 17 <<< 1
  (if p.getLsbD (r - 1) then v ^^^ poly else v).setWidth 16

/-- The tables before the loop of R42: 2^r entries each, EXP[0] = 1, LOG with no value anywhere. What the other EXP
entries hold is never read: each is written before the loop reads it. -/
def blankField (r : Nat) : FieldContext :=
  { r := r, exp := (List.replicate (2 ^ r) 0).set 0 1, log := List.replicate (2 ^ r) none }

/-- One iteration of the loop of R42: p = EXP[i-1], EXP[i] <- v, LOG[v] <- i. -/
def fieldBuildStep (poly : Poly) (r : Nat) (f : FieldContext) (i : Nat) : FieldContext :=
  let v := alphaStep poly r (f.exp.getD (i - 1) 0)
  { f with exp := f.exp.set i v, log := f.log.set v.toNat (some (BitVec.ofNat 16 i)) }

/-- FieldBuild(r) (R42): the field context it leaves, R <- r included. -/
def fieldBuild (prim : PrimTable) (r : Nat) : FieldContext :=
  (upTo 1 (2 ^ r - 1)).foldl (fieldBuildStep (primEntry prim r) r) (blankField r)

/-! ### Exp, Log, Mul (R43, R44, R45) -/

/-- `Exp(i) = EXP[i mod (2^R - 1)]` for any natural i (R43, R84). -/
def expAt (f : FieldContext) (i : Nat) : Except Fault Elem := readEntry f.exp (i % (2 ^ f.r - 1))

/-- `Log(x) = LOG[x]` (R44). An entry that holds no value faults (R16, R77, U1). -/
def logAt (f : FieldContext) (x : Elem) : Except Fault Nat :=
  match readEntry f.log x.toNat with
  | .ok (some v) => .ok v.toNat
  | .ok none => .error .sentinelRead
  | .error e => .error e

/-- `Mul(x, y)` (R45): 0 when an operand is 0, without consulting LOG; else Exp of the sum of the logarithms, exact. -/
def mul (f : FieldContext) (x y : Elem) : Except Fault Elem :=
  if x = 0 ∨ y = 0 then .ok 0
  else do
    let lx ← logAt f x
    let ly ← logAt f y
    expAt f (lx + ly)

end Sys2Proof.Machine
end

