-- ==== Sys2Proof/Machine/FastTables.lean ====
section
/-! DEFINITION. A version of FieldBuild over arrays, proved equal to the one of Ops.lean and used by compiled code in its
place, so that the tables of the large fields can be run. No statement and no other definition names it. -/

namespace Sys2Proof.Machine

open Sys2Proof

/-- `fieldBuildStep` on a pair of arrays. -/
def fastBuildStep (poly : Poly) (r : Nat) : Array Elem × Array (Option LogValue) → Nat →
    Array Elem × Array (Option LogValue)
  | (exp, log), i =>
    let v := alphaStep poly r (exp.getD (i - 1) 0)
    (exp.setIfInBounds i v, log.setIfInBounds v.toNat (some (BitVec.ofNat 16 i)))

/-- The field context that a pair of arrays stands for. -/
def contextOfArrays (r : Nat) (t : Array Elem × Array (Option LogValue)) : FieldContext :=
  { r := r, exp := t.1.toList, log := t.2.toList }

/-- `fieldBuild` over arrays. -/
def fieldBuildFast (prim : PrimTable) (r : Nat) : FieldContext :=
  contextOfArrays r
    ((upTo 1 (2 ^ r - 1)).foldl (fastBuildStep (primEntry prim r) r)
      ((blankField r).exp.toArray, (blankField r).log.toArray))

theorem contextOfArrays_step (poly : Poly) (r : Nat) (t : Array Elem × Array (Option LogValue)) (i : Nat) :
    contextOfArrays r (fastBuildStep poly r t i) = fieldBuildStep poly r (contextOfArrays r t) i := by
  obtain ⟨exp, log⟩ := t
  simp [contextOfArrays, fastBuildStep, fieldBuildStep, List.getD]

theorem contextOfArrays_foldl (poly : Poly) (r : Nat) (l : List Nat) (t : Array Elem × Array (Option LogValue)) :
    contextOfArrays r (l.foldl (fastBuildStep poly r) t) = l.foldl (fieldBuildStep poly r) (contextOfArrays r t) := by
  induction l generalizing t with
  | nil => rfl
  | cons i l ih => simp only [List.foldl_cons, ih, contextOfArrays_step]

/-- Compiled code builds the tables with arrays. -/
@[csimp] theorem fieldBuild_eq_fast : @fieldBuild = @fieldBuildFast := by
  funext prim r
  simp only [fieldBuild, fieldBuildFast, contextOfArrays_foldl]
  rfl

end Sys2Proof.Machine
end

