-- ==== Sys2Proof/Machine/Operands.lean ====
section
/-! DEFINITION. The operand forms and the checks on them (30_encoding.md R35, R37; 60_exceptions.md R65, R66, R68).
Operands are unsigned field values; comparisons are on naturals (00_scope.md R7). -/

namespace Sys2Proof.Machine

open Sys2Proof

/-- r is in [2, 16] (R46, R58, R65). -/
def orderOk (r : BitVec 5) : Bool := rMin ≤ r.toNat && r.toNat ≤ rMax

/-- x is an element of the current field: x < 2^R (R48, R61, D7). -/
def isElem (f : FieldContext) (x : Elem) : Bool := x.toNat < 2 ^ f.r

/-- i is an index of EXP: i < 2^R (R49). -/
def expIndexOk (f : FieldContext) (i : BitVec 32) : Bool := i.toNat < 2 ^ f.r

/-- x is a readable index of LOG: not 0, below 2^R (R25, R50). -/
def logIndexOk (f : FieldContext) (x : BitVec 32) : Bool := x.toNat != 0 && x.toNat < 2 ^ f.r

/-- j is an index of GEN: j <= 2S (R57). -/
def genIndexOk (e : EncoderContext) (j : BitVec 32) : Bool := j.toNat ≤ 2 * e.s

/-- The configuration (k, s, r) is accepted by ENCINIT: the three checks of R58, which share one status. -/
def configOk (cfg : Config) (k s : BitVec 16) (r : BitVec 5) : Bool :=
  orderOk r && k.toNat != 0 && s.toNat != 0 && !(cfg.strictN && k.toNat + 2 * s.toNat > 2 ^ r.toNat - 1)

/-- The message length is the configured K (R61, R66). -/
def lengthOk (e : EncoderContext) (len : BitVec 32) : Bool := len.toNat == e.k

/-- Every payload word is an element of the current field (R37, R61). -/
def messageOk (f : FieldContext) (m : List Elem) : Bool := m.all (isElem f)

end Sys2Proof.Machine
end

