-- ==== Sys2Proof/Machine/Flags.lean ====
section
/-! DEFINITION. The two flags FVALID and EVALID (10_state.md R14, R18): who tests them, who sets and clears them, with
the contexts they guard (10_state.md R22; 70_reset_and_hazards.md R75). -/

namespace Sys2Proof.Machine

open Sys2Proof

/-- A command that reads the field context: NoContext when FVALID = 0 (R14, R68). -/
def withField (s : State) (body : Host.Outcome State Fault Refusal) : Host.Outcome State Fault Refusal :=
  if s.fvalid then body else fail .noContext s

/-- A command that reads the encoder context: NoContext when EVALID = 0 (R18, R68). -/
def withEncoder (s : State) (body : Host.Outcome State Fault Refusal) : Host.Outcome State Fault Refusal :=
  if s.evalid then body else fail .noContext s

/-- What a successful GFINIT writes (R22): the field context, FVALID <- 1, EVALID <- 0. K, S, N and GEN keep what
they held, which nothing can read (U4; log 6). -/
def State.installField (s : State) (f : FieldContext) : State :=
  { s with field := f, fvalid := true, evalid := false }

/-- What a successful ENCINIT writes (R22): both contexts, FVALID <- 1, EVALID <- 1. -/
def State.installEncoder (s : State) (f : FieldContext) (e : EncoderContext) : State :=
  { s with field := f, fvalid := true, enc := e, evalid := true }

/-- The reset move of the host (R22, R75): FVALID <- 0, EVALID <- 0, PRIM and STRICT_N stay, and R, EXP, LOG, K, S, N
and GEN become unspecified: the free value of this reset (log 5). That LOG[0] is free here too, a number or no value, is
DESIGN CHOICE (log 5): U3 says any value of all of LOG after reset, while U1 and D14 say no value of LOG[0]. -/
def State.assertReset (s : State) : State :=
  let u := Config.afterReset s.resets
  { s with
    field := { r := u.r.toNat, exp := u.exp, log := u.log }
    fvalid := false
    enc := { k := u.k.toNat, s := u.s.toNat, n := u.n.toNat, gen := u.gen }
    evalid := false
    resets := s.resets + 1 }

end Sys2Proof.Machine
end

