-- ==== Sys2Proof/Machine/Generator.lean ====
section
/-! DEFINITION. The generator polynomial builder: Tri, GenBuild and the command RDGEN (41_generator.md R54, R55, R57). -/

namespace Sys2Proof.Machine

open Sys2Proof

/-- `Tri(i) = i*(i+1)/2`, exact (R54). -/
def tri (i : Nat) : Nat := i * (i + 1) / 2

/-- The body of the inner loop of R55: `GEN[j] <- GEN[j-1] XOR Mul(Exp(i), GEN[j])`. -/
def genInner (f : FieldContext) (i : Nat) (gen : List Elem) (j : Nat) : Except Fault (List Elem) := do
  let below ← readEntry gen (j - 1)
  let here ← readEntry gen j
  let root ← expAt f i
  let prod ← mul f root here
  writeEntry gen j (below ^^^ prod)

/-- Outer step i of R55: leading coefficient, inner loop downward (R78), closed-form constant term (R79). -/
def genStep (f : FieldContext) (gen : List Elem) (i : Nat) : Except Fault (List Elem) := do
  let gen ← writeEntry gen i 1
  let gen ← (downTo (i - 1) 1).foldlM (genInner f i) gen
  let c ← expAt f (tri i)
  writeEntry gen 0 c

/-- The array before step 1 of R55: the constant polynomial 1 in 2s+1 entries. -/
def genStart (s : Nat) : List Elem := (List.replicate (2 * s + 1) 0).set 0 1

/-- GenBuild(s) (R55). -/
def genBuild (f : FieldContext) (s : Nat) : Except Fault (List Elem) :=
  (upTo 1 (2 * s)).foldlM (genStep f) (genStart s)

/-- RDGEN j (R57). -/
def execRdgen (j : BitVec 32) (s : State) : Host.Outcome State Fault Refusal :=
  withEncoder s <|
    if genIndexOk s.enc j then
      finish s do
        let v ← readEntry s.enc.gen j.toNat
        return okResponse (v.setWidth 32) []
    else fail .operandRange s

end Sys2Proof.Machine
end

