-- ==== Sys2Proof/Machine/Encoder.lean ====
section
/-! DEFINITION. The parity encoder: ParityDivide and the commands ENCINIT and ENCPAR (42_encoder.md R58 to R61). -/

namespace Sys2Proof.Machine

open Sys2Proof

/-- The body of the inner loop of R60: `BUF[i-j] <- BUF[i-j] XOR Mul(c, GEN[2*S - j])`. -/
def parityInner (f : FieldContext) (e : EncoderContext) (i : Nat) (c : Elem) (buf : List Elem) (j : Nat) :
    Except Fault (List Elem) := do
  let here ← readEntry buf (i - j)
  let g ← readEntry e.gen (2 * e.s - j)
  let prod ← mul f c g
  writeEntry buf (i - j) (here ^^^ prod)

/-- The outer step of R60 for degree i: nothing when BUF[i] = 0. -/
def parityStep (f : FieldContext) (e : EncoderContext) (buf : List Elem) (i : Nat) : Except Fault (List Elem) := do
  let c ← readEntry buf i
  if c = 0 then return buf
  else do
    let buf ← (upTo 1 (2 * e.s)).foldlM (parityInner f e i c) buf
    writeEntry buf i 0

/-- `BUF[2*S + t] <- m[t]` (R59). -/
def placeSymbol (e : EncoderContext) (m : List Elem) (buf : List Elem) (t : Nat) : Except Fault (List Elem) := do
  let x ← readEntry m t
  writeEntry buf (2 * e.s + t) x

/-- BUF before the division (R59): N zeros, then m[t] at 2S + t for t = 0 .. K-1. -/
def parityStart (e : EncoderContext) (m : List Elem) : Except Fault (List Elem) :=
  (List.range e.k).foldlM (placeSymbol e m) (List.replicate e.n 0)

/-- The division loop of R60: i from N-1 down to 2S. -/
def parityLoop (f : FieldContext) (e : EncoderContext) (buf : List Elem) : Except Fault (List Elem) :=
  (downTo (e.n - 1) (2 * e.s)).foldlM (parityStep f e) buf

/-- ParityDivide(m) (R60): BUF lives only here (R20, R80). The result is BUF[0 .. 2S-1]. -/
def parityDivide (f : FieldContext) (e : EncoderContext) (m : List Elem) : Except Fault (List Elem) := do
  let buf ← parityStart e m
  let buf ← parityLoop f e buf
  return buf.take (2 * e.s)

/-- ENCINIT k, s, r (R58): the field tables first, then the generator over them. -/
def execEncinit (k sc : BitVec 16) (r : BitVec 5) (s : State) : Host.Outcome State Fault Refusal :=
  if configOk s.cfg k sc r then
    let f := fieldBuild s.cfg.prim r.toNat
    match genBuild f sc.toNat with
    | .ok gen =>
      let e : EncoderContext :=
        { k := k.toNat, s := sc.toNat, n := k.toNat + 2 * sc.toNat, gen := gen }
      .next ((s.installEncoder f e).respond (okResponse 0 []))
    | .error flt => .fault flt
  else fail .configError s

/-- ENCPAR len, m (R61): NoContext, then InvalidArgument, then OperandRange (R69). VAL is 2S. -/
def execEncpar (len : BitVec 32) (m : List Elem) (s : State) : Host.Outcome State Fault Refusal :=
  withEncoder s <|
    if !lengthOk s.enc len then fail .invalidArgument s
    else if !messageOk s.field m then fail .operandRange s
    else
      finish s do
        let p ← parityDivide s.field s.enc m
        return okResponse (BitVec.ofNat 32 (2 * s.enc.s)) p

end Sys2Proof.Machine
end

