-- ==== Sys2Proof/Machine/Field.lean ====
section
/-! DEFINITION. The meanings of the field-engine commands: GFINIT, GFEXP, GFMUL, RDEXP, RDLOG (40_field.md R46 to R50). -/

namespace Sys2Proof.Machine

open Sys2Proof

/-- GFINIT r (R46). -/
def execGfinit (r : BitVec 5) (s : State) : Host.Outcome State Fault Refusal :=
  if orderOk r then .next ((s.installField (fieldBuild s.cfg.prim r.toNat)).respond (okResponse 0 []))
  else fail .configError s

/-- GFEXP x (R47). -/
def execGfexp (x : BitVec 32) (s : State) : Host.Outcome State Fault Refusal :=
  withField s <| finish s do
    let v ← expAt s.field x.toNat
    return okResponse (v.setWidth 32) []

/-- GFMUL x, y (R48). -/
def execGfmul (x y : Elem) (s : State) : Host.Outcome State Fault Refusal :=
  withField s <|
    if isElem s.field x && isElem s.field y then
      finish s do
        let v ← mul s.field x y
        return okResponse (v.setWidth 32) []
    else fail .operandRange s

/-- RDEXP i (R49): the raw table, no reduction of i. -/
def execRdexp (i : BitVec 32) (s : State) : Host.Outcome State Fault Refusal :=
  withField s <|
    if expIndexOk s.field i then
      finish s do
        let v ← readEntry s.field.exp i.toNat
        return okResponse (v.setWidth 32) []
    else fail .operandRange s

/-- RDLOG x (R50). -/
def execRdlog (x : BitVec 32) (s : State) : Host.Outcome State Fault Refusal :=
  withField s <|
    if logIndexOk s.field x then
      finish s do
        let v ← logAt s.field (x.setWidth 16)
        return okResponse (BitVec.ofNat 32 v) []
    else fail .operandRange s

end Sys2Proof.Machine
end

