-- ==== Sys2Proof/Machine/Dispatch.lean ====
section
/-! DEFINITION. One arm per command (30_encoding.md R38). -/

namespace Sys2Proof.Machine

open Sys2Proof

def exec (i : Instr) (s : State) : Host.Outcome State Fault Refusal :=
  match i with
  | .gfinit r => Sys2Proof.Machine.execGfinit r s
  | .gfexp x => Sys2Proof.Machine.execGfexp x s
  | .gfmul x y => Sys2Proof.Machine.execGfmul x y s
  | .encinit k sc r => Sys2Proof.Machine.execEncinit k sc r s
  | .encpar len m => Sys2Proof.Machine.execEncpar len m s
  | .rdexp x => Sys2Proof.Machine.execRdexp x s
  | .rdlog x => Sys2Proof.Machine.execRdlog x s
  | .rdgen j => Sys2Proof.Machine.execRdgen j s

end Sys2Proof.Machine
end

