-- ==== Sys2Proof/Machine/Issue.lean ====
section
/-! DEFINITION. Running one packet from arrival to response (10_state.md R11; 30_encoding.md R34, R40), and the packet
that a number stands for. -/

namespace Sys2Proof.Machine

open Sys2Proof

/-- An illegal word is answered IllegalCommand, with no state change; its payload, if OP = 0x5 gave it one, is
ignored (R40, R68, D24). -/
def answerIllegal (s : State) : Host.Outcome State Fault Refusal := fail .illegalCommand s

/-- One command from its arrival to its response (R11): decode, then the command's rule, or IllegalCommand, which comes
before every other status (R69). -/
def runPacket (p : Packet) (s : State) : Host.Outcome State Fault Refusal :=
  match decode p.cw p.payload with
  | .ok i => exec i s
  | .error _ => answerIllegal s

/-- Between commands the block is idle and keeps all of its state (R74; log 8). -/
def idle (s : State) : Host.Outcome State Fault Refusal := .next s

/-- The packet that a number stands for, as `wordOfBits` and `payloadOfBits` read it (log 9). -/
def packetOfBits (nbits w : Nat) : Packet :=
  { cw := wordOfBits nbits w, payload := payloadOfBits nbits w, framed := payloadOfBits_length nbits w }

end Sys2Proof.Machine
end

