-- ==== Sys2Proof/Machine/Step.lean ====
section
/-! DEFINITION. One step of RSCORE: the host's next move, taken whole (10_state.md R11; 20_memory.md R30). -/

namespace Sys2Proof.Machine

open Sys2Proof

/-- One step: the host's next move in issue order, or idling when none waits. -/
def step (s : State) : Host.Outcome State Fault Refusal :=
  match s.inbox with
  | [] => idle s
  | .command p :: rest => runPacket p { s with inbox := rest }
  | .reset :: rest => .next (State.assertReset { s with inbox := rest })

/-- The host's next move is the packet that the number stands for: the very next step runs it (log 9). -/
def State.withFetchWord (s : State) (nbits w : Nat) : State :=
  { s with inbox := .command (packetOfBits nbits w) :: s.inbox }

end Sys2Proof.Machine
end

