-- ==== Sys2Proof/Machine/Pack.lean ====
section
/-! DEFINITION. The byte-packing convention of the test harness (42_encoder.md R63). It is no command of RSCORE and no
step uses it (90_conflicts.md C5; log 12). -/

namespace Sys2Proof.Machine

open Sys2Proof

/-- The r-bit binary representation of a symbol, most significant bit first. -/
def symbolBits (r : Nat) (x : Elem) : List Bool := ((List.range r).map x.getLsbD).reverse

/-- All symbols in order as one bit string. -/
def packBits (p : List Elem) (r : Nat) : List Bool := p.flatMap (symbolBits r)

/-- An 8-bit group as an unsigned byte, its first bit the byte's bit 7. -/
def byteOfBits (bits : List Bool) : BitVec 8 := BitVec.ofNat 8 (bits.foldl (fun acc b => 2 * acc + b.toNat) 0)

/-- `Pack(p, r)`: `none` when `len(p) * r` is not a multiple of 8, where R63 leaves it undefined (U18). -/
def pack (p : List Elem) (r : Nat) : Option (List (BitVec 8)) :=
  if p.length * r % 8 = 0 then
    some ((List.range (p.length * r / 8)).map fun q => byteOfBits (((packBits p r).drop (8 * q)).take 8))
  else none

end Sys2Proof.Machine
end

