-- ==== Sys2Proof/Machine/Reference.lean ====
section
/-! DEFINITION. What the rules are stated against, none of it used by a step: the powers of alpha and primitivity on
naturals (10_state.md R12), polynomial multiplication over GF(2) (40_field.md R53), polynomials over the field
(41_generator.md R56; 42_encoder.md R62), and copies of GenBuild and ParityDivide that count (70_reset_and_hazards.md R88). -/

namespace Sys2Proof.Machine

open Sys2Proof

/-! ### Powers of alpha and primitive polynomials, on naturals (R7, R12, R42) -/

/-- `step(p)` of R42 in exact arithmetic on naturals. -/
def stepNat (poly r p : Nat) : Nat := if p.testBit (r - 1) then (p <<< 1) ^^^ poly else p <<< 1

/-- e(0) = 1, e(i) = step(e(i-1)) (R12): alpha^i. -/
def alphaPow (poly r : Nat) : Nat → Nat
  | 0 => 1
  | i + 1 => stepNat poly r (alphaPow poly r i)

/-- What R12 asks of an entry: bit r and bit 0 set, no bit above r, and the doubling sequence takes 2^r - 1 distinct
values before it returns to 1. -/
structure Primitive (poly r : Nat) : Prop where
  top : poly.testBit r = true
  bottom : poly.testBit 0 = true
  degree : poly < 2 ^ (r + 1)
  distinct : ∀ i < 2 ^ r - 1, ∀ j < 2 ^ r - 1, alphaPow poly r i = alphaPow poly r j → i = j
  period : alphaPow poly r (2 ^ r - 1) = 1

/-- PRIM[r] is a primitive polynomial of degree r. -/
def PrimAt (t : PrimTable) (r : Nat) : Prop := Primitive (primEntry t r).toNat r

/-- The constraint on the parameter PRIM (R12, D5): every entry primitive, entries 2 and 10 pinned. -/
structure PrimAdmissible (t : PrimTable) : Prop where
  primitive : ∀ r, rMin ≤ r → r ≤ rMax → PrimAt t r
  pinned2 : t.p2 = 0x7
  pinned10 : t.p10 = 0x409

/-! ### Carry-less multiplication and reduction (R53) -/

/-- `clmul(x, y)`: the XOR over all set bits b of y of `x << b`; y has at most 16 bits. -/
def clmul (x y : Nat) : Nat := (List.range 16).foldl (fun acc b => if y.testBit b then acc ^^^ (x <<< b) else acc) 0

/-- Clear bit b when it is set: `p <- p XOR (PRIM[R] << (b - R))`. -/
def reduceStep (poly r p b : Nat) : Nat := if p.testBit b then p ^^^ (poly <<< (b - r)) else p

/-- `reduce(p)`: b from 2R-2 down to R. -/
def reduceNat (poly r p : Nat) : Nat := (downTo (2 * r - 2) r).foldl (reduceStep poly r) p

/-! ### Arithmetic of a field context as plain functions

Where the operation of the machine faults these answer 0; the statements that use them are about contexts and operands
for which the machine's own operation answers, which other statements say. -/

/-- The symbol an operation answers, 0 where it faults. -/
def symbolOf : Except Fault Elem → Elem
  | .ok v => v
  | .error _ => 0

/-- Mul as a plain function. -/
def product (f : FieldContext) (x y : Elem) : Elem := symbolOf (mul f x y)

/-- Exp as a plain function: alpha^i. -/
def alphaElem (f : FieldContext) (i : Nat) : Elem := symbolOf (expAt f i)

/-! ### Polynomials over the field, low degree first (R19, R26) -/

/-- (x + alpha^i) * p. -/
def mulRoot (f : FieldContext) (i : Nat) (p : List Elem) : List Elem :=
  List.zipWith (· ^^^ ·) (0 :: p) (p.map (product f (alphaElem f i)) ++ [0])

/-- The product of (x + alpha^i) for i = 1 .. n. -/
def rootProduct (f : FieldContext) : Nat → List Elem
  | 0 => [1]
  | n + 1 => mulRoot f (n + 1) (rootProduct f n)

/-- p(alpha^t): the XOR over j of Mul(p[j], Exp(t*j)) (R56 (c)). -/
def evalAtPower (f : FieldContext) (p : List Elem) (t : Nat) : Elem :=
  (List.range p.length).foldl (fun acc j => acc ^^^ product f (p.getD j 0) (alphaElem f (t * j))) 0

/-- The coefficient of x^d in q * g. -/
def convCoeff (f : FieldContext) (q g : List Elem) (d : Nat) : Elem :=
  (List.range (d + 1)).foldl (fun acc t => acc ^^^ product f (q.getD t 0) (g.getD (d - t) 0)) 0

/-- p is the remainder of x^(2s) * m on division by g, with some quotient q of as many symbols as m (R62 (c)):
x^(2s) * m = q * g + p, coefficient by coefficient, and p has degree below 2s. -/
def IsRemainder (f : FieldContext) (s : Nat) (m g p : List Elem) : Prop :=
  p.length = 2 * s ∧
    ∃ q : List Elem, q.length = m.length ∧ (∀ x ∈ q, isElem f x = true) ∧
      ∀ d < m.length + 2 * s, (List.replicate (2 * s) 0 ++ m).getD d 0 = convCoeff f q g d ^^^ p.getD d 0

/-! ### Counting copies (R88) -/

/-- Calls of Mul, and outer iterations of ParityDivide at which BUF[i] was not zero. -/
structure Counts where
  mulCalls : Nat
  active : Nat
deriving DecidableEq, Repr

/-- `genInner`, counting its call of Mul. -/
def genInnerC (f : FieldContext) (i : Nat) (a : List Elem × Counts) (j : Nat) : Except Fault (List Elem × Counts) := do
  let gen ← genInner f i a.1 j
  return (gen, { a.2 with mulCalls := a.2.mulCalls + 1 })

/-- `genStep` over the counting inner loop. -/
def genStepC (f : FieldContext) (a : List Elem × Counts) (i : Nat) : Except Fault (List Elem × Counts) := do
  let gen ← writeEntry a.1 i 1
  let (gen, n) ← (downTo (i - 1) 1).foldlM (genInnerC f i) (gen, a.2)
  let c ← expAt f (tri i)
  let gen ← writeEntry gen 0 c
  return (gen, n)

/-- `genBuild`, counting. -/
def genBuildC (f : FieldContext) (s : Nat) : Except Fault (List Elem × Counts) :=
  (upTo 1 (2 * s)).foldlM (genStepC f) (genStart s, { mulCalls := 0, active := 0 })

/-- `parityInner`, counting its call of Mul. -/
def parityInnerC (f : FieldContext) (e : EncoderContext) (i : Nat) (c : Elem) (a : List Elem × Counts) (j : Nat) :
    Except Fault (List Elem × Counts) := do
  let buf ← parityInner f e i c a.1 j
  return (buf, { a.2 with mulCalls := a.2.mulCalls + 1 })

/-- `parityStep` over the counting inner loop. -/
def parityStepC (f : FieldContext) (e : EncoderContext) (a : List Elem × Counts) (i : Nat) :
    Except Fault (List Elem × Counts) := do
  let c ← readEntry a.1 i
  if c = 0 then return a
  else do
    let (buf, n) ← (upTo 1 (2 * e.s)).foldlM (parityInnerC f e i c) (a.1, a.2)
    let buf ← writeEntry buf i 0
    return (buf, { n with active := n.active + 1 })

/-- `parityDivide`, counting. -/
def parityDivideC (f : FieldContext) (e : EncoderContext) (m : List Elem) : Except Fault (List Elem × Counts) := do
  let buf ← parityStart e m
  let (buf, n) ← (downTo (e.n - 1) (2 * e.s)).foldlM (parityStepC f e) (buf, { mulCalls := 0, active := 0 })
  return (buf.take (2 * e.s), n)

end Sys2Proof.Machine
end

