-- ==== Sys2Proof/Safety.lean ====
section
/-! DEFINITION. The invariants of the state (10_state.md R11, R23), what a proper response is (30_encoding.md R39), and
the classes of command that whole-machine rules speak of. -/

namespace Sys2Proof.Machine

open Sys2Proof

/-- A field context built by FieldBuild(R) with R in [2, 16] (R14, R23 (b)). -/
structure FieldValid (cfg : Config) (f : FieldContext) : Prop where
  lower : rMin ≤ f.r
  upper : f.r ≤ rMax
  built : f = fieldBuild cfg.prim f.r

/-- An encoder configuration built by ENCINIT over the field context (R17, R18, R23 (c)). -/
structure EncoderValid (cfg : Config) (f : FieldContext) (e : EncoderContext) : Prop where
  kPos : 1 ≤ e.k
  sPos : 1 ≤ e.s
  total : e.n = e.k + 2 * e.s
  built : genBuild f e.s = .ok e.gen
  bound : cfg.strictN = true → e.n ≤ 2 ^ f.r - 1

/-- The registers fit their widths (R11: 5, 16, 16 and 18 bits). -/
structure WidthsOk (st : State) : Prop where
  rWidth : st.field.r < 2 ^ 5
  kWidth : st.enc.k < 2 ^ 16
  sWidth : st.enc.s < 2 ^ 16
  nWidth : st.enc.n < 2 ^ 18

/-- The invariant of R23: (a), (b), (c), and the register widths of R11. -/
structure State.Inv (s : State) : Prop where
  flags : s.evalid = true → s.fvalid = true
  field : s.fvalid = true → FieldValid s.cfg s.field
  enc : s.evalid = true → EncoderValid s.cfg s.field s.enc
  widths : WidthsOk s

/-- A state in which the field commands work: FVALID = 1 over a built context whose polynomial is primitive. -/
structure State.FieldReady (s : State) : Prop where
  flag : s.fvalid = true
  valid : FieldValid s.cfg s.field
  prim : PrimAt s.cfg.prim s.field.r

/-- A state in which the encoder commands work: EVALID = 1 over a built context, its field ready. -/
structure State.EncoderReady (s : State) : Prop where
  field : s.FieldReady
  flag : s.evalid = true
  valid : EncoderValid s.cfg s.field s.enc

/-- On any status other than OK, VAL = 0 and there is no payload (R39). -/
def Response.wf (r : Response) : Prop := r.status ≠ .ok → r.val = 0 ∧ r.payload = []

/-- The read-only commands (R22, R28): GFEXP, GFMUL, ENCPAR, RDEXP, RDLOG, RDGEN. -/
def readOnly : Instr → Bool
  | .gfinit _ => false
  | .gfexp _ => true
  | .gfmul _ _ => true
  | .encinit _ _ _ => false
  | .encpar _ _ => true
  | .rdexp _ => true
  | .rdlog _ => true
  | .rdgen _ => true

/-- The commands that read the field context and not the encoder context (R68). -/
def readsField : Instr → Bool
  | .gfinit _ => false
  | .gfexp _ => true
  | .gfmul _ _ => true
  | .encinit _ _ _ => false
  | .encpar _ _ => false
  | .rdexp _ => true
  | .rdlog _ => true
  | .rdgen _ => false

/-- The commands that read the encoder context (R68). -/
def readsEncoder : Instr → Bool
  | .gfinit _ => false
  | .gfexp _ => false
  | .gfmul _ _ => false
  | .encinit _ _ _ => false
  | .encpar _ _ => true
  | .rdexp _ => false
  | .rdlog _ => false
  | .rdgen _ => true

/-- A word is illegal by R40: (a) a reserved opcode, (b) Z not zero, (c) a field that carries no operand not zero. -/
def IllegalWord (cw : CommandWord) : Prop :=
  (cwOp cw = 0 ∨ 9 ≤ (cwOp cw).toNat) ∨ cwZ cw ≠ 0 ∨
    (cwOp cw = 1 ∧ (cwB cw ≠ 0 ∨ cwC cw ≠ 0)) ∨
    (cwOp cw ∈ [2, 3, 5, 6, 7, 8] ∧ cwA cw ≠ 0)

/-- s with one more response given: the frame of every command that writes nothing (R22). -/
def answered (s : State) (r : Response) : State := { s with outbox := s.outbox ++ [r] }

end Sys2Proof.Machine
end

