-- ==== Sys2Proof/Certificates/Slice0/Obligations.lean ====
section
/-! DEFINITION. The statements for the provers. Each docstring names the rules it rests on and, where it rests on a
choice of the model, the log entry. -/

open Sys2Proof Sys2Proof.Machine

/-! ### Encoding (30_encoding.md) -/

/-- Encoding an instruction and decoding the words gives the instruction back, every operand at every value of its field
(R35, R36, R37, R38). -/
def Obligations.DecodeReadsEncodedInstruction : Prop :=
  ∀ i : Instr, i.wf = true → decode (encodeWord i) (encodePayload i) = .ok i

/-- Every legal packet is the encoding of exactly the instruction it decodes to, and that instruction is well formed
(R34, R36, R37, R40): no bit of a legal packet is dropped. -/
def Obligations.DecodedInstructionEncodesBack : Prop :=
  ∀ (p : Packet) (i : Instr), decode p.cw p.payload = .ok i → i.wf = true ∧ encode i = (p.cw, p.payload)

/-- The decoder agrees with the mask and match words of R38: a decoded command's row selects the word, and a word that a
row selects decodes to a command of that row. -/
def Obligations.OpcodeMapSelectsDecodedCommand : Prop :=
  ∀ (cw : CommandWord) (m : List Elem),
    (∀ i, decode cw m = .ok i → (opRow i).selects cw = true) ∧
      ∀ row ∈ opRows, row.selects cw = true → ∃ i, decode cw m = .ok i ∧ opRow i = row

/-- R40: a word decodes to a command or is illegal, illegal exactly for the reasons (a), (b), (c); a packet's payload is
delimited by LEN when OP = 0x5 and is empty otherwise, legal or not; and an illegal word is answered IllegalCommand with
no state change. -/
def Obligations.IllegalWordsAreRefused : Prop :=
  (∀ (cw : CommandWord) (m : List Elem), IllegalWord cw ↔ ∃ e, decode cw m = .error e) ∧
    (∀ p : Packet, p.payload.length = if cwOp p.cw = 0x5 then (cwX p.cw).toNat else 0) ∧
    ∀ (s : State) (p : Packet) (rest : List HostMove), s.inbox = .command p :: rest → IllegalWord p.cw →
      step s = .next (answered { s with inbox := rest } { status := .illegalCommand, val := 0, payload := [] })

/-- Words written out in 40_field.md, 41_generator.md, 42_encoder.md and 95_test_vectors.md section 5, one for every
command and one for each reason a word is illegal. A sanity statement. -/
def Obligations.SpecWordsDecodeAsWritten : Prop :=
  decode 0x1000000300000000 [] = .ok (.gfinit 3) ∧
    decode 0x2000000000000024 [] = .ok (.gfexp 36) ∧
    decode 0x3000000002000002 [] = .ok (.gfmul 512 2) ∧
    decode 0x4000000A02000004 [] = .ok (.encinit 512 4 10) ∧
    decode 0x5000000000000003 [1, 2, 3] = .ok (.encpar 3 [1, 2, 3]) ∧
    decode 0x6000000000000007 [] = .ok (.rdexp 7) ∧
    decode 0x7000000000000005 [] = .ok (.rdlog 5) ∧
    decode 0x8000000000000004 [] = .ok (.rdgen 4) ∧
    decode 0x9000000000000000 [] = .error .reservedOpcode ∧
    decode 0x1000002300000000 [] = .error .reservedField ∧
    decode 0x3000000100010001 [] = .error .unusedOperand

/-- The response word holds the status code in bits 63:60, zero in bits 59:32 and VAL in bits 31:0, and the six codes
are 0 to 5 (R39). -/
def Obligations.ResponseWordHoldsStatusAndValue : Prop :=
  (∀ r : Response, r.word.extractLsb' 60 4 = r.status.code ∧ r.word.extractLsb' 32 28 = 0 ∧
    r.word.extractLsb' 0 32 = r.val) ∧
    [Status.ok, .configError, .invalidArgument, .operandRange, .noContext, .illegalCommand].map Status.code =
      [0, 1, 2, 3, 4, 5]

/-! ### One step (10_state.md R11; 20_memory.md R30; 70_reset_and_hazards.md R75) -/

/-- When the host's next move is a packet that decodes to an instruction, the step is exec of that instruction with the
packet taken off the inbox (R11, R30, R34). The inbox is the model's own (log 1). -/
def Obligations.StepRunsDecodedInstruction : Prop :=
  ∀ (s : State) (p : Packet) (rest : List HostMove) (i : Instr),
    s.inbox = .command p :: rest → decode p.cw p.payload = .ok i → step s = exec i { s with inbox := rest }

/-- With no move of the host waiting, the block keeps all of its state (R74). That idling is a step of its own is the
model's choice (log 8). -/
def Obligations.IdleBlockKeepsItsState : Prop :=
  ∀ s : State, s.inbox = [] → step s = .next s

/-- R75: a reset move clears both flags and leaves the parameters; after it every command but GFINIT and ENCINIT ends
NoContext. It gives no response and touches nothing of the host's side but the move itself; what the unspecified
registers and tables hold is a free value, of which nothing is said (log 5). -/
def Obligations.ResetMoveClearsBothFlags : Prop :=
  ∀ (s : State) (rest : List HostMove), s.inbox = .reset :: rest →
    ∃ t, step s = .next t ∧ t.fvalid = false ∧ t.evalid = false ∧ t.cfg = s.cfg ∧ t.inbox = rest ∧
      t.outbox = s.outbox ∧
      ∀ i, readOnly i = true →
        exec i t = .next (answered t { status := .noContext, val := 0, payload := [] })

/-- A command is answered exactly once: its step takes one packet and gives one response, which carries no value and no
payload unless its status is OK (R34, R39, R64). The inbox and the outbox are the model's own (DESIGN CHOICE, log 1). -/
def Obligations.EachCommandGetsOneResponse : Prop :=
  ∀ (s t : State) (p : Packet) (rest : List HostMove), s.inbox = .command p :: rest → step s = .next t →
    t.inbox = rest ∧ t.resets = s.resets ∧ ∃ r, t.outbox = s.outbox ++ [r] ∧ r.wf

/-! ### Whole-machine rules -/

/-- The state after reset, whatever the parameters: both flags 0, the parameters as given, no response yet, and the
invariant of R23 (R24; 70_reset_and_hazards.md R75). The values the model names for the unspecified registers (log 4)
are not asserted. The last clause, that State.reset takes the default PRIM table and STRICT_N = true of R5, is the model's
choice (log 2: PRESUMED for 13 entries of the table, DESIGN CHOICE for STRICT_N). -/
def Obligations.ResetStateMeetsInvariant : Prop :=
  (∀ cfg : Config, (State.resetWith cfg).fvalid = false ∧ (State.resetWith cfg).evalid = false ∧
    (State.resetWith cfg).cfg = cfg ∧ (State.resetWith cfg).inbox = [] ∧ (State.resetWith cfg).outbox = [] ∧
    (State.resetWith cfg).Inv) ∧
    State.reset = State.resetWith { prim := PrimTable.standard, strictN := true }

/-- R23: every step keeps the invariant, from every state that has it, whatever PRIM and STRICT_N are. -/
def Obligations.StepKeepsInvariant : Prop :=
  ∀ s t : State, s.Inv → step s = .next t → t.Inv

/-- R67, R27, R77: with an admissible PRIM table no step from a state with the invariant faults: no internal access is
out of range, LOG[0] is never read, and the invariant holds again. -/
def Obligations.StepNeverFaults : Prop :=
  ∀ s : State, PrimAdmissible s.cfg.prim → s.Inv → ∃ t, step s = .next t ∧ t.Inv ∧ t.cfg = s.cfg

/-- R64, R86: from a state with the invariant and an admissible PRIM table, taking every waiting move ends in a next
state with the inbox empty and one response more for every command, none for a reset. The inbox of waiting moves and the
outbox of responses are the model's own (DESIGN CHOICE, log 1). -/
def Obligations.EveryWaitingCommandIsAnswered : Prop :=
  ∀ s : State, PrimAdmissible s.cfg.prim → s.Inv →
    ∃ t : State, Host.Core.run Sys2Proof.core s.inbox.length s = .next t ∧ t.inbox = [] ∧ t.Inv ∧
      t.outbox.length =
        s.outbox.length + (s.inbox.filter fun mv => match mv with | .command _ => true | .reset => false).length

/-- R22, R28: a read-only command, whatever its status, writes nothing: every register, table, flag and parameter and
the inbox are as before, and one response is given. -/
def Obligations.ReadOnlyCommandsWriteNothing : Prop :=
  ∀ (i : Instr) (s t : State), readOnly i = true → exec i s = .next t → ∃ r, t = answered s r

/-- R70: a command that ends in a status other than OK writes no state element; its response has VAL 0 and no payload,
and its word is the code shifted to bits 63:60. -/
def Obligations.FailedCommandsWriteNothing : Prop :=
  (∀ (i : Instr) (s t : State) (r : Response), exec i s = .next t → t.outbox = s.outbox ++ [r] → r.status ≠ .ok →
    r.val = 0 ∧ r.payload = [] ∧ t = answered s r) ∧
    ∀ st : Status, (failResponse st).word = st.code.setWidth 64 <<< 60

/-- R81: R, EXP, LOG, K, S, N, GEN and the flags change only by a reset move or by a GFINIT or ENCINIT that ends OK,
and PRIM and STRICT_N never change. -/
def Obligations.ContextsChangeOnlyByConstruction : Prop :=
  ∀ s t : State, step s = .next t →
    t.cfg = s.cfg ∧
      ((t.field = s.field ∧ t.enc = s.enc ∧ t.fvalid = s.fvalid ∧ t.evalid = s.evalid) ∨
        (∃ rest, s.inbox = .reset :: rest) ∨
        ∃ p rest i, s.inbox = .command p :: rest ∧ decode p.cw p.payload = .ok i ∧ readOnly i = false ∧
          t.outbox = s.outbox ++ [{ status := .ok, val := 0, payload := [] }])

/-- R28, R62 (a): read-only commands may be repeated and reordered without changing any response. -/
def Obligations.ReadOnlyCommandsCommute : Prop :=
  ∀ (i j : Instr) (s t u : State), readOnly i = true → readOnly j = true → exec i s = .next t → exec j s = .next u →
    ∃ a b, t = answered s a ∧ u = answered s b ∧ exec j t = .next (answered t b) ∧ exec i u = .next (answered u a)

/-- R77, R16: no command's answer depends on LOG[0]: whatever stands there, a command that completes completes with the
same responses. -/
def Obligations.AnswersIgnoreLogOfZero : Prop :=
  ∀ (i : Instr) (s t : State) (v : Option LogValue), s.field.r ≤ rMax → exec i s = .next t →
    ∃ t', exec i { s with field := { s.field with log := s.field.log.set 0 v } } = .next t' ∧ t'.outbox = t.outbox

/-- R69: the order of the checks. (1) An illegal word is IllegalCommand in every state; (2) a legal command without its
context is NoContext whatever its operands; (3) then ConfigError for GFINIT and ENCINIT, and InvalidArgument for ENCPAR
whatever its payload; (4) OperandRange, when the context is there and, for ENCPAR, the length is right. -/
def Obligations.ChecksAreMadeInOrder : Prop :=
  (∀ (s : State) (p : Packet), IllegalWord p.cw → runPacket p s = .next (answered s (failResponse .illegalCommand))) ∧
    (∀ (i : Instr) (s : State),
      (readsField i = true ∧ s.fvalid = false) ∨ (readsEncoder i = true ∧ s.evalid = false) →
        exec i s = .next (answered s (failResponse .noContext))) ∧
    (∀ (r : BitVec 5) (s : State), ¬(2 ≤ r.toNat ∧ r.toNat ≤ 16) →
      exec (.gfinit r) s = .next (answered s (failResponse .configError))) ∧
    (∀ (k sc : BitVec 16) (r : BitVec 5) (s : State),
      (¬(2 ≤ r.toNat ∧ r.toNat ≤ 16) ∨ k.toNat = 0 ∨ sc.toNat = 0 ∨
          (s.cfg.strictN = true ∧ 2 ^ r.toNat - 1 < k.toNat + 2 * sc.toNat)) →
        exec (.encinit k sc r) s = .next (answered s (failResponse .configError))) ∧
    (∀ (len : BitVec 32) (m : List Elem) (s : State), s.evalid = true → len.toNat ≠ s.enc.k →
      exec (.encpar len m) s = .next (answered s (failResponse .invalidArgument))) ∧
    (∀ (len : BitVec 32) (m : List Elem) (s : State), s.evalid = true → len.toNat = s.enc.k →
      (∃ x ∈ m, 2 ^ s.field.r ≤ x.toNat) →
        exec (.encpar len m) s = .next (answered s (failResponse .operandRange))) ∧
    (∀ (x y : Elem) (s : State), s.fvalid = true → (2 ^ s.field.r ≤ x.toNat ∨ 2 ^ s.field.r ≤ y.toNat) →
      exec (.gfmul x y) s = .next (answered s (failResponse .operandRange))) ∧
    (∀ (x : BitVec 32) (s : State), s.fvalid = true → 2 ^ s.field.r ≤ x.toNat →
      exec (.rdexp x) s = .next (answered s (failResponse .operandRange))) ∧
    (∀ (x : BitVec 32) (s : State), s.fvalid = true → (x = 0 ∨ 2 ^ s.field.r ≤ x.toNat) →
      exec (.rdlog x) s = .next (answered s (failResponse .operandRange))) ∧
    ∀ (j : BitVec 32) (s : State), s.evalid = true → 2 * s.enc.s < j.toNat →
      exec (.rdgen j) s = .next (answered s (failResponse .operandRange))

/-- R85: a successful GFINIT ends the encoder context: ENCPAR and RDGEN then end NoContext, and no command but ENCINIT
ends that. After a successful ENCINIT the field commands need no GFINIT: they run on the context ENCINIT built. -/
def Obligations.GfinitEndsEncoderContext : Prop :=
  (∀ (r : BitVec 5) (s t : State), 2 ≤ r.toNat → r.toNat ≤ 16 → exec (.gfinit r) s = .next t →
    t.evalid = false ∧ ∀ i, readsEncoder i = true → exec i t = .next (answered t (failResponse .noContext))) ∧
    (∀ (i : Instr) (s t : State), s.evalid = false → exec i s = .next t → t.evalid = true →
      ∃ k sc r, i = .encinit k sc r) ∧
    ∀ (k sc : BitVec 16) (r : BitVec 5) (s t : State), exec (.encinit k sc r) s = .next t →
      t.outbox = s.outbox ++ [okResponse 0 []] →
        t.fvalid = true ∧ t.evalid = true ∧ t.field = fieldBuild s.cfg.prim r.toNat

/-! ### The field engine (40_field.md) -/

/-- R42, D6: one step of FieldBuild on a symbol of the field equals the exact natural-number step, equals the form that
keeps r bits and XORs the low r bits of the polynomial, and stays below 2^r. -/
def Obligations.AlphaStepIsExact : Prop :=
  ∀ (poly : Poly) (r : Nat) (p : Elem), 1 ≤ r → r ≤ 16 → poly.toNat.testBit r = true → poly.toNat < 2 ^ (r + 1) →
    p.toNat < 2 ^ r →
      (alphaStep poly r p).toNat = stepNat poly.toNat r p.toNat ∧
        (alphaStep poly r p).toNat =
          (2 * p.toNat) % 2 ^ r ^^^ (if p.toNat.testBit (r - 1) then poly.toNat % 2 ^ r else 0) ∧
        (alphaStep poly r p).toNat < 2 ^ r

/-- R12: 0x7 is the only primitive polynomial of degree 2. -/
def Obligations.OnlyPrimitiveOfDegreeTwo : Prop :=
  ∀ poly : Nat, Primitive poly 2 ↔ poly = 0x7

/-- R15, R16, R42: what FieldBuild leaves. EXP has 2^r entries, EXP[i] = alpha^i, every entry in [1, 2^r - 1],
EXP[0] = EXP[2^r - 1] = 1. LOG has 2^r entries; for x in [2, 2^r - 1] LOG[x] is an i in [1, 2^r - 2] with EXP[i] = x;
LOG[1] = 2^r - 1; LOG[0] holds no value. -/
def Obligations.FieldBuildFillsBothTables : Prop :=
  ∀ (prim : PrimTable) (r : Nat), rMin ≤ r → r ≤ rMax → PrimAt prim r →
    let f := fieldBuild prim r
    f.r = r ∧ f.exp.length = 2 ^ r ∧ f.log.length = 2 ^ r ∧
      (∀ i < 2 ^ r, ∃ v, f.exp[i]? = some v ∧ v.toNat = alphaPow (primEntry prim r).toNat r i ∧
        1 ≤ v.toNat ∧ v.toNat ≤ 2 ^ r - 1) ∧
      f.exp[0]? = some 1 ∧ f.exp[2 ^ r - 1]? = some 1 ∧
      (∀ x : Elem, 2 ≤ x.toNat → x.toNat ≤ 2 ^ r - 1 →
        ∃ l : LogValue, f.log[x.toNat]? = some (some l) ∧ 1 ≤ l.toNat ∧ l.toNat ≤ 2 ^ r - 2 ∧
          f.exp[l.toNat]? = some x) ∧
      f.log[1]? = some (some (BitVec.ofNat 16 (2 ^ r - 1))) ∧ f.log[0]? = some none

/-- R23 (b): the tables are inverse to each other: EXP[LOG[x]] = x for x in [1, 2^r - 1], LOG[EXP[i]] = i for i in
[1, 2^r - 1], and EXP[0 .. 2^r - 2] is a permutation of [1, 2^r - 1]. -/
def Obligations.TablesAreInverse : Prop :=
  ∀ (prim : PrimTable) (r : Nat), rMin ≤ r → r ≤ rMax → PrimAt prim r →
    let f := fieldBuild prim r
    (∀ x : Elem, 1 ≤ x.toNat → x.toNat ≤ 2 ^ r - 1 →
      ∃ l : LogValue, f.log[x.toNat]? = some (some l) ∧ f.exp[l.toNat]? = some x) ∧
      (∀ i, 1 ≤ i → i ≤ 2 ^ r - 1 → ∃ x : Elem, f.exp[i]? = some x ∧ f.log[x.toNat]? = some (some (BitVec.ofNat 16 i))) ∧
      List.Perm ((f.exp.take (2 ^ r - 1)).map BitVec.toNat) (upTo 1 (2 ^ r - 1))

/-- R51: the source's testable properties. (a) Exp(Log(x)) = x for x in [1, 2^r - 1]; (b) Exp is periodic with period
2^r - 1; (c) Mul(x, 0) = 0, Mul(0, y) = 0, Mul(x, y) = Mul(y, x). -/
def Obligations.FieldEngineProperties : Prop :=
  ∀ (prim : PrimTable) (r : Nat), rMin ≤ r → r ≤ rMax → PrimAt prim r →
    let f := fieldBuild prim r
    (∀ x : Elem, x ≠ 0 → x.toNat < 2 ^ r → ∃ l, logAt f x = .ok l ∧ expAt f l = .ok x) ∧
      (∀ i : Nat, expAt f i = expAt f (i + (2 ^ r - 1))) ∧
      ∀ x y : Elem, x.toNat < 2 ^ r → y.toNat < 2 ^ r →
        mul f x 0 = .ok 0 ∧ mul f 0 y = .ok 0 ∧ mul f x y = mul f y x

/-- R52 (a), the multiplicative laws: Mul answers for all symbols and stays in the field, is associative, has identity 1,
is 0 only when an operand is 0, and every non-zero x has the inverse Exp((2^r - 1) - Log(x)). -/
def Obligations.NonzeroElementsFormGroup : Prop :=
  ∀ (prim : PrimTable) (r : Nat), rMin ≤ r → r ≤ rMax → PrimAt prim r →
    let f := fieldBuild prim r
    (∀ x y : Elem, x.toNat < 2 ^ r → y.toNat < 2 ^ r →
      ∃ v, mul f x y = .ok v ∧ v.toNat < 2 ^ r ∧ (v = 0 ↔ x = 0 ∨ y = 0)) ∧
      (∀ x y z a b : Elem, x.toNat < 2 ^ r → y.toNat < 2 ^ r → z.toNat < 2 ^ r → mul f x y = .ok a → mul f y z = .ok b →
        mul f a z = mul f x b) ∧
      (∀ x : Elem, x.toNat < 2 ^ r → mul f 1 x = .ok x ∧ mul f x 1 = .ok x) ∧
      ∀ x : Elem, x ≠ 0 → x.toNat < 2 ^ r →
        ∃ l y, logAt f x = .ok l ∧ expAt f (2 ^ r - 1 - l) = .ok y ∧ mul f x y = .ok 1

/-- R52 (a): Mul distributes over XOR. -/
def Obligations.MulDistributesOverXor : Prop :=
  ∀ (prim : PrimTable) (r : Nat), rMin ≤ r → r ≤ rMax → PrimAt prim r →
    ∀ x y z : Elem, x.toNat < 2 ^ r → y.toNat < 2 ^ r → z.toNat < 2 ^ r →
      ∃ a b, mul (fieldBuild prim r) x y = .ok a ∧ mul (fieldBuild prim r) x z = .ok b ∧
        mul (fieldBuild prim r) x (y ^^^ z) = .ok (a ^^^ b)

/-- R53, which the spec marks as its own inference from R42: for symbols of the field, the table product is the
carry-less product reduced modulo PRIM[r]. -/
def Obligations.MulIsPolynomialMultiplication : Prop :=
  ∀ (prim : PrimTable) (r : Nat), rMin ≤ r → r ≤ rMax → PrimAt prim r →
    ∀ x y : Elem, x.toNat < 2 ^ r → y.toNat < 2 ^ r →
      ∃ v, mul (fieldBuild prim r) x y = .ok v ∧
        v.toNat = reduceNat (primEntry prim r).toNat r (clmul x.toNat y.toNat)

/-- R46: GFINIT. With r in [2, 16] it completes, from every state: R, EXP, LOG are FieldBuild(r)'s, FVALID is set, EVALID
cleared, OK 0 answered and nothing else changed; with any other r it answers ConfigError and changes nothing. That a
successful GFINIT keeps K, S, N and GEN is the model's choice (DESIGN CHOICE, log 6: 93_implementation_defined.md U4 leaves
them any value). -/
def Obligations.GfinitBuildsFieldContext : Prop :=
  ∀ (r : BitVec 5) (s : State),
    (2 ≤ r.toNat ∧ r.toNat ≤ 16 →
      exec (.gfinit r) s =
        .next { s with
          field := fieldBuild s.cfg.prim r.toNat
          fvalid := true
          evalid := false
          outbox := s.outbox ++ [{ status := .ok, val := 0, payload := [] }] }) ∧
      (¬(2 ≤ r.toNat ∧ r.toNat ≤ 16) →
        exec (.gfinit r) s = .next (answered s { status := .configError, val := 0, payload := [] }))

/-- R47: GFEXP over any state. NoContext when FVALID = 0; else, where EXP holds the entry at x mod (2^R - 1), that entry
is answered and nothing changes. -/
def Obligations.GfexpReadsReducedIndex : Prop :=
  ∀ (x : BitVec 32) (s : State),
    (s.fvalid = false → exec (.gfexp x) s = .next (answered s { status := .noContext, val := 0, payload := [] })) ∧
      ∀ v, s.fvalid = true → s.field.exp[x.toNat % (2 ^ s.field.r - 1)]? = some v →
        exec (.gfexp x) s = .next (answered s { status := .ok, val := v.setWidth 32, payload := [] })

/-- R43, R47: in a ready field context GFEXP completes for every exponent and answers alpha^(x mod (2^R - 1)), a symbol
in [1, 2^R - 1]; nothing changes. -/
def Obligations.GfexpAnswersPowerOfAlpha : Prop :=
  ∀ (x : BitVec 32) (s : State), s.FieldReady →
    let v := alphaPow (primEntry s.cfg.prim s.field.r).toNat s.field.r (x.toNat % (2 ^ s.field.r - 1))
    exec (.gfexp x) s = .next (answered s { status := .ok, val := BitVec.ofNat 32 v, payload := [] }) ∧
      1 ≤ v ∧ v ≤ 2 ^ s.field.r - 1

/-- R48, R45: GFMUL over any state. NoContext when FVALID = 0; OperandRange when an operand is no element; 0 when an
operand is 0, whatever the tables hold; else the EXP entry at the sum of the LOG entries, reduced. Nothing changes. -/
def Obligations.GfmulFollowsTableRule : Prop :=
  ∀ (x y : Elem) (s : State),
    (s.fvalid = false → exec (.gfmul x y) s = .next (answered s { status := .noContext, val := 0, payload := [] })) ∧
      (s.fvalid = true → (2 ^ s.field.r ≤ x.toNat ∨ 2 ^ s.field.r ≤ y.toNat) →
        exec (.gfmul x y) s = .next (answered s { status := .operandRange, val := 0, payload := [] })) ∧
      (s.fvalid = true → x.toNat < 2 ^ s.field.r → y.toNat < 2 ^ s.field.r → (x = 0 ∨ y = 0) →
        exec (.gfmul x y) s = .next (answered s { status := .ok, val := 0, payload := [] })) ∧
      ∀ (lx ly : LogValue) (v : Elem), s.fvalid = true → x.toNat < 2 ^ s.field.r → y.toNat < 2 ^ s.field.r →
        x ≠ 0 → y ≠ 0 → s.field.log[x.toNat]? = some (some lx) → s.field.log[y.toNat]? = some (some ly) →
        s.field.exp[(lx.toNat + ly.toNat) % (2 ^ s.field.r - 1)]? = some v →
          exec (.gfmul x y) s = .next (answered s { status := .ok, val := v.setWidth 32, payload := [] })

/-- R48, R53: in a ready field context GFMUL completes for every pair of elements and answers their carry-less product
reduced modulo PRIM[R]; nothing changes. -/
def Obligations.GfmulAnswersPolynomialProduct : Prop :=
  ∀ (x y : Elem) (s : State), s.FieldReady → x.toNat < 2 ^ s.field.r → y.toNat < 2 ^ s.field.r →
    exec (.gfmul x y) s =
      .next (answered s
        { status := .ok
          val := BitVec.ofNat 32
            (reduceNat (primEntry s.cfg.prim s.field.r).toNat s.field.r (clmul x.toNat y.toNat))
          payload := [] })

/-- R49: RDEXP over any state. NoContext when FVALID = 0; OperandRange when i >= 2^R; else the raw entry EXP[i], where
the table holds one. Nothing changes. -/
def Obligations.RdexpReadsRawTable : Prop :=
  ∀ (i : BitVec 32) (s : State),
    (s.fvalid = false → exec (.rdexp i) s = .next (answered s { status := .noContext, val := 0, payload := [] })) ∧
      (s.fvalid = true → 2 ^ s.field.r ≤ i.toNat →
        exec (.rdexp i) s = .next (answered s { status := .operandRange, val := 0, payload := [] })) ∧
      ∀ v, s.fvalid = true → i.toNat < 2 ^ s.field.r → s.field.exp[i.toNat]? = some v →
        exec (.rdexp i) s = .next (answered s { status := .ok, val := v.setWidth 32, payload := [] })

/-- R49, R15: in a ready field context RDEXP completes for every i below 2^R and answers alpha^i without reducing i;
the entry at 2^R - 1 is 1. Nothing changes. -/
def Obligations.RdexpAnswersPowerOfAlpha : Prop :=
  ∀ (i : BitVec 32) (s : State), s.FieldReady → i.toNat < 2 ^ s.field.r →
    exec (.rdexp i) s =
        .next (answered s
          { status := .ok
            val := BitVec.ofNat 32 (alphaPow (primEntry s.cfg.prim s.field.r).toNat s.field.r i.toNat)
            payload := [] }) ∧
      (i.toNat = 2 ^ s.field.r - 1 →
        exec (.rdexp i) s = .next (answered s { status := .ok, val := 1, payload := [] }))

/-- R50: RDLOG over any state with R at most 16. NoContext when FVALID = 0; OperandRange when x = 0 or x >= 2^R; else
LOG[x], where the entry holds a value. Nothing changes. -/
def Obligations.RdlogReadsTable : Prop :=
  ∀ (x : BitVec 32) (s : State), s.field.r ≤ rMax →
    (s.fvalid = false → exec (.rdlog x) s = .next (answered s { status := .noContext, val := 0, payload := [] })) ∧
      (s.fvalid = true → (x = 0 ∨ 2 ^ s.field.r ≤ x.toNat) →
        exec (.rdlog x) s = .next (answered s { status := .operandRange, val := 0, payload := [] })) ∧
      ∀ l : LogValue, s.fvalid = true → x ≠ 0 → x.toNat < 2 ^ s.field.r → s.field.log[x.toNat]? = some (some l) →
        exec (.rdlog x) s = .next (answered s { status := .ok, val := l.setWidth 32, payload := [] })

/-- R44, R50, R16: in a ready field context RDLOG completes for every x in [1, 2^R - 1] and answers an l in
[1, 2^R - 1] with alpha^l = x, which is 2^R - 1 for x = 1. Nothing changes. -/
def Obligations.RdlogAnswersDiscreteLogarithm : Prop :=
  ∀ (x : BitVec 32) (s : State), s.FieldReady → x ≠ 0 → x.toNat < 2 ^ s.field.r →
    ∃ l, 1 ≤ l ∧ l ≤ 2 ^ s.field.r - 1 ∧
      alphaPow (primEntry s.cfg.prim s.field.r).toNat s.field.r l = x.toNat ∧
      (x = 1 → l = 2 ^ s.field.r - 1) ∧
      exec (.rdlog x) s = .next (answered s { status := .ok, val := BitVec.ofNat 32 l, payload := [] })

/-! ### The generator builder (41_generator.md) -/

/-- R54: Tri(i) is 1 + 2 + .. + i, and the halving loses nothing. -/
def Obligations.TriIsTriangularSum : Prop :=
  ∀ i : Nat, 2 * tri i = i * (i + 1) ∧ tri i = (upTo 1 i).sum

/-- R55, R19: GenBuild never fails over a built field and gives the coefficients of the product of (x + alpha^i) for
i = 1 .. 2s, whatever s is. -/
def Obligations.GenBuildIsProductOfRoots : Prop :=
  ∀ (prim : PrimTable) (r s : Nat), rMin ≤ r → r ≤ rMax → PrimAt prim r → 1 ≤ s →
    genBuild (fieldBuild prim r) s = .ok (rootProduct (fieldBuild prim r) (2 * s))

/-- R56 (a), (b), R19: GEN has 2s + 1 entries, all of them elements of the field; GEN[2s] = 1; GEN[0] = Exp(Tri(2s)) =
Exp(s*(2s+1)), which is not 0. -/
def Obligations.GeneratorIsMonicWithKnownConstant : Prop :=
  ∀ (prim : PrimTable) (r s : Nat) (gen : List Elem), rMin ≤ r → r ≤ rMax → PrimAt prim r → 1 ≤ s →
    genBuild (fieldBuild prim r) s = .ok gen →
      gen.length = 2 * s + 1 ∧ (∀ x ∈ gen, x.toNat < 2 ^ r) ∧ gen[2 * s]? = some 1 ∧
        ∃ c, gen[0]? = some c ∧ c ≠ 0 ∧ expAt (fieldBuild prim r) (tri (2 * s)) = .ok c ∧
          expAt (fieldBuild prim r) (s * (2 * s + 1)) = .ok c

/-- R56 (c): the generator vanishes at alpha^1 .. alpha^(2s). -/
def Obligations.GeneratorVanishesAtItsRoots : Prop :=
  ∀ (prim : PrimTable) (r s t : Nat) (gen : List Elem), rMin ≤ r → r ≤ rMax → PrimAt prim r → 1 ≤ s →
    genBuild (fieldBuild prim r) s = .ok gen → 1 ≤ t → t ≤ 2 * s → evalAtPower (fieldBuild prim r) gen t = 0

/-- R56 (e): the 2s roots are distinct exactly when 2s <= 2^r - 2. -/
def Obligations.RootsAreDistinctWithinBound : Prop :=
  ∀ (prim : PrimTable) (r s : Nat), rMin ≤ r → r ≤ rMax → PrimAt prim r → 1 ≤ s →
    ((∀ i j, 1 ≤ i → i < j → j ≤ 2 * s → expAt (fieldBuild prim r) i ≠ expAt (fieldBuild prim r) j) ↔
      2 * s ≤ 2 ^ r - 2)

/-- R57: RDGEN over any state. NoContext when EVALID = 0; OperandRange when j > 2S; else GEN[j], where the table holds
it. Nothing changes. -/
def Obligations.RdgenReadsTable : Prop :=
  ∀ (j : BitVec 32) (s : State),
    (s.evalid = false → exec (.rdgen j) s = .next (answered s { status := .noContext, val := 0, payload := [] })) ∧
      (s.evalid = true → 2 * s.enc.s < j.toNat →
        exec (.rdgen j) s = .next (answered s { status := .operandRange, val := 0, payload := [] })) ∧
      ∀ v, s.evalid = true → j.toNat ≤ 2 * s.enc.s → s.enc.gen[j.toNat]? = some v →
        exec (.rdgen j) s = .next (answered s { status := .ok, val := v.setWidth 32, payload := [] })

/-- R57, R56: in a ready encoder context RDGEN completes for every j up to 2S and answers the coefficient of x^j in the
product of (x + alpha^i) for i = 1 .. 2S; nothing changes. -/
def Obligations.RdgenAnswersCoefficient : Prop :=
  ∀ (j : BitVec 32) (s : State), s.EncoderReady → j.toNat ≤ 2 * s.enc.s →
    exec (.rdgen j) s =
      .next (answered s
        { status := .ok, val := ((rootProduct s.field (2 * s.enc.s)).getD j.toNat 0).setWidth 32, payload := [] })

/-! ### The parity encoder (42_encoder.md) -/

/-- R58: ENCINIT. A configuration with r in [2, 16], k and s not 0, and, under STRICT_N, k + 2s <= 2^r - 1 is accepted
from every state: the field context is FieldBuild(r)'s, K, S, N are k, s, k + 2s, GEN is the product of (x + alpha^i)
for i = 1 .. 2s, both flags are set, OK 0 is answered, and nothing else changes. Any other configuration is answered
ConfigError and changes nothing. -/
def Obligations.EncinitBuildsBothContexts : Prop :=
  ∀ (k sc : BitVec 16) (r : BitVec 5) (s : State),
    let accepted := (2 ≤ r.toNat ∧ r.toNat ≤ 16) ∧ k.toNat ≠ 0 ∧ sc.toNat ≠ 0 ∧
      (s.cfg.strictN = true → k.toNat + 2 * sc.toNat ≤ 2 ^ r.toNat - 1)
    (accepted → PrimAt s.cfg.prim r.toNat →
      exec (.encinit k sc r) s =
        .next { s with
          field := fieldBuild s.cfg.prim r.toNat
          fvalid := true
          enc :=
            { k := k.toNat
              s := sc.toNat
              n := k.toNat + 2 * sc.toNat
              gen := rootProduct (fieldBuild s.cfg.prim r.toNat) (2 * sc.toNat) }
          evalid := true
          outbox := s.outbox ++ [{ status := .ok, val := 0, payload := [] }] }) ∧
      (¬accepted →
        exec (.encinit k sc r) s = .next (answered s { status := .configError, val := 0, payload := [] }))

/-- R59: the buffer starts as 2S zeros followed by the message, m[t] at 2S + t. -/
def Obligations.BufferHoldsShiftedMessage : Prop :=
  ∀ (e : EncoderContext) (m : List Elem), e.n = e.k + 2 * e.s → m.length = e.k →
    parityStart e m = .ok (List.replicate (2 * e.s) 0 ++ m)

/-- R61: ENCPAR over any state. NoContext when EVALID = 0; InvalidArgument when LEN is not K, whatever the payload;
OperandRange when a payload word is no element; else the 2S parity symbols of ParityDivide, where it answers. Nothing
changes. -/
def Obligations.EncparChecksThenDivides : Prop :=
  ∀ (len : BitVec 32) (m : List Elem) (s : State),
    (s.evalid = false →
      exec (.encpar len m) s = .next (answered s { status := .noContext, val := 0, payload := [] })) ∧
      (s.evalid = true → len.toNat ≠ s.enc.k →
        exec (.encpar len m) s = .next (answered s { status := .invalidArgument, val := 0, payload := [] })) ∧
      (s.evalid = true → len.toNat = s.enc.k → (∃ x ∈ m, 2 ^ s.field.r ≤ x.toNat) →
        exec (.encpar len m) s = .next (answered s { status := .operandRange, val := 0, payload := [] })) ∧
      ∀ p, s.evalid = true → len.toNat = s.enc.k → (∀ x ∈ m, x.toNat < 2 ^ s.field.r) →
        parityDivide s.field s.enc m = .ok p →
          exec (.encpar len m) s =
            .next (answered s { status := .ok, val := BitVec.ofNat 32 (2 * s.enc.s), payload := p })

/-- R61, R62 (c), R67: in a ready encoder context ENCPAR completes for every message of K elements: it answers 2S and a
parity that is the remainder of x^(2S) * m(x) on division by GEN, all its symbols elements of the field. Nothing
changes. -/
def Obligations.EncparAnswersRemainder : Prop :=
  ∀ (len : BitVec 32) (m : List Elem) (s : State), s.EncoderReady → len.toNat = s.enc.k → m.length = s.enc.k →
    (∀ x ∈ m, x.toNat < 2 ^ s.field.r) →
      ∃ p, exec (.encpar len m) s =
          .next (answered s { status := .ok, val := BitVec.ofNat 32 (2 * s.enc.s), payload := p }) ∧
        (∀ x ∈ p, x.toNat < 2 ^ s.field.r) ∧ IsRemainder s.field s.enc.s m s.enc.gen p

/-- R62 (d): parity followed by message, read low degree first, vanishes at alpha^1 .. alpha^(2S). No bound on N is
assumed (R62 (f)). -/
def Obligations.CodewordVanishesAtTheRoots : Prop :=
  ∀ (cfg : Config) (f : FieldContext) (e : EncoderContext) (m p : List Elem) (t : Nat), FieldValid cfg f →
    PrimAt cfg.prim f.r → EncoderValid cfg f e → m.length = e.k → (∀ x ∈ m, x.toNat < 2 ^ f.r) →
      parityDivide f e m = .ok p → 1 ≤ t → t ≤ 2 * e.s → evalAtPower f (p ++ m) t = 0

/-- R62 (e): ParityDivide is linear: it takes XOR to XOR and multiples to multiples, symbol by symbol. -/
def Obligations.ParityIsLinear : Prop :=
  ∀ (cfg : Config) (f : FieldContext) (e : EncoderContext) (m m' p p' : List Elem) (c : Elem), FieldValid cfg f →
    PrimAt cfg.prim f.r → EncoderValid cfg f e → m.length = e.k → m'.length = e.k →
      (∀ x ∈ m, x.toNat < 2 ^ f.r) → (∀ x ∈ m', x.toNat < 2 ^ f.r) → c.toNat < 2 ^ f.r →
        parityDivide f e m = .ok p → parityDivide f e m' = .ok p' →
          parityDivide f e (List.zipWith (· ^^^ ·) m m') = .ok (List.zipWith (· ^^^ ·) p p') ∧
            parityDivide f e (m.map (product f c)) = .ok (p.map (product f c))

/-- R62 (e): the zero message has zero parity, and the message [1, 0, .., 0] has parity GEN[0 .. 2S-1]. -/
def Obligations.ParityOfZeroAndUnitMessages : Prop :=
  ∀ (cfg : Config) (f : FieldContext) (e : EncoderContext), FieldValid cfg f → PrimAt cfg.prim f.r →
    EncoderValid cfg f e →
      parityDivide f e (List.replicate e.k 0) = .ok (List.replicate (2 * e.s) 0) ∧
        parityDivide f e (1 :: List.replicate (e.k - 1) 0) = .ok (e.gen.take (2 * e.s))

/-- R88: GenBuild(s) makes s*(2s-1) calls of Mul; ParityDivide makes 2S calls for each of at most K outer iterations at
which BUF[i] is not zero, none for the zero message and 2S for [1, 0, .., 0]. The counting copies compute what GenBuild and
ParityDivide compute. -/
def Obligations.OperationCountsAreExact : Prop :=
  (∀ (f : FieldContext) (s : Nat) (gen : List Elem), genBuild f s = .ok gen →
    genBuildC f s = .ok (gen, { mulCalls := s * (2 * s - 1), active := 0 })) ∧
    (∀ (f : FieldContext) (e : EncoderContext) (m p : List Elem), e.n = e.k + 2 * e.s → parityDivide f e m = .ok p →
      ∃ a ≤ e.k, parityDivideC f e m = .ok (p, { mulCalls := 2 * e.s * a, active := a })) ∧
    ∀ (cfg : Config) (f : FieldContext) (e : EncoderContext), FieldValid cfg f → PrimAt cfg.prim f.r →
      EncoderValid cfg f e →
        parityDivideC f e (List.replicate e.k 0) =
            .ok (List.replicate (2 * e.s) 0, { mulCalls := 0, active := 0 }) ∧
          ∃ p, parityDivideC f e (1 :: List.replicate (e.k - 1) 0) = .ok (p, { mulCalls := 2 * e.s, active := 1 })

/-- R63: Pack is defined exactly when the bit count is a multiple of 8, and then the bytes, each most significant bit
first, spell the symbols' r-bit representations, most significant bit first, in order. That Pack answers none for any other
bit count is the model's reading (DEDUCED, log 12: R63 calls Pack undefined there, and D18 asks a harness to refuse). -/
def Obligations.PackKeepsTheBitString : Prop :=
  ∀ (p : List Elem) (r : Nat), 1 ≤ r → r ≤ 16 →
    (p.length * r % 8 = 0 →
      ∃ bytes, pack p r = some bytes ∧ 8 * bytes.length = p.length * r ∧
        (bytes.flatMap fun b => ((List.range 8).map b.getLsbD).reverse) = packBits p r) ∧
      (p.length * r % 8 ≠ 0 → pack p r = none)
end

