-- ==== Sys2Proof/Laws/State.lean ====
section
/-! SUPPORT. One lemma per field and update of State, each true by rfl. -/

namespace Sys2Proof.Machine

open Sys2Proof

variable (s : State) (r : Response) (f : FieldContext) (e : EncoderContext)

@[simp] theorem respond_cfg : (s.respond r).cfg = s.cfg := rfl
@[simp] theorem respond_field : (s.respond r).field = s.field := rfl
@[simp] theorem respond_fvalid : (s.respond r).fvalid = s.fvalid := rfl
@[simp] theorem respond_enc : (s.respond r).enc = s.enc := rfl
@[simp] theorem respond_evalid : (s.respond r).evalid = s.evalid := rfl
@[simp] theorem respond_inbox : (s.respond r).inbox = s.inbox := rfl
@[simp] theorem respond_outbox : (s.respond r).outbox = s.outbox ++ [r] := rfl
@[simp] theorem respond_resets : (s.respond r).resets = s.resets := rfl

/-- Responding is the frame that the statements call `answered`. -/
theorem respond_eq_answered : s.respond r = answered s r := rfl

@[simp] theorem answered_cfg : (answered s r).cfg = s.cfg := rfl
@[simp] theorem answered_field : (answered s r).field = s.field := rfl
@[simp] theorem answered_fvalid : (answered s r).fvalid = s.fvalid := rfl
@[simp] theorem answered_enc : (answered s r).enc = s.enc := rfl
@[simp] theorem answered_evalid : (answered s r).evalid = s.evalid := rfl
@[simp] theorem answered_inbox : (answered s r).inbox = s.inbox := rfl
@[simp] theorem answered_outbox : (answered s r).outbox = s.outbox ++ [r] := rfl
@[simp] theorem answered_resets : (answered s r).resets = s.resets := rfl

@[simp] theorem installField_cfg : (s.installField f).cfg = s.cfg := rfl
@[simp] theorem installField_field : (s.installField f).field = f := rfl
@[simp] theorem installField_fvalid : (s.installField f).fvalid = true := rfl
@[simp] theorem installField_enc : (s.installField f).enc = s.enc := rfl
@[simp] theorem installField_evalid : (s.installField f).evalid = false := rfl
@[simp] theorem installField_inbox : (s.installField f).inbox = s.inbox := rfl
@[simp] theorem installField_outbox : (s.installField f).outbox = s.outbox := rfl
@[simp] theorem installField_resets : (s.installField f).resets = s.resets := rfl

@[simp] theorem installEncoder_cfg : (s.installEncoder f e).cfg = s.cfg := rfl
@[simp] theorem installEncoder_field : (s.installEncoder f e).field = f := rfl
@[simp] theorem installEncoder_fvalid : (s.installEncoder f e).fvalid = true := rfl
@[simp] theorem installEncoder_enc : (s.installEncoder f e).enc = e := rfl
@[simp] theorem installEncoder_evalid : (s.installEncoder f e).evalid = true := rfl
@[simp] theorem installEncoder_inbox : (s.installEncoder f e).inbox = s.inbox := rfl
@[simp] theorem installEncoder_outbox : (s.installEncoder f e).outbox = s.outbox := rfl
@[simp] theorem installEncoder_resets : (s.installEncoder f e).resets = s.resets := rfl

@[simp] theorem assertReset_cfg : s.assertReset.cfg = s.cfg := rfl
@[simp] theorem assertReset_fvalid : s.assertReset.fvalid = false := rfl
@[simp] theorem assertReset_evalid : s.assertReset.evalid = false := rfl
@[simp] theorem assertReset_inbox : s.assertReset.inbox = s.inbox := rfl
@[simp] theorem assertReset_outbox : s.assertReset.outbox = s.outbox := rfl
@[simp] theorem assertReset_resets : s.assertReset.resets = s.resets + 1 := rfl

@[simp] theorem withFetchWord_cfg (n w : Nat) : (s.withFetchWord n w).cfg = s.cfg := rfl
@[simp] theorem withFetchWord_field (n w : Nat) : (s.withFetchWord n w).field = s.field := rfl
@[simp] theorem withFetchWord_fvalid (n w : Nat) : (s.withFetchWord n w).fvalid = s.fvalid := rfl
@[simp] theorem withFetchWord_enc (n w : Nat) : (s.withFetchWord n w).enc = s.enc := rfl
@[simp] theorem withFetchWord_evalid (n w : Nat) : (s.withFetchWord n w).evalid = s.evalid := rfl
@[simp] theorem withFetchWord_outbox (n w : Nat) : (s.withFetchWord n w).outbox = s.outbox := rfl
@[simp] theorem withFetchWord_resets (n w : Nat) : (s.withFetchWord n w).resets = s.resets := rfl
@[simp] theorem withFetchWord_inbox (n w : Nat) :
    (s.withFetchWord n w).inbox = .command (packetOfBits n w) :: s.inbox := rfl

/-- The width invariant after a reset move: the free value keeps every register within its width (R11). -/
theorem assertReset_widths : WidthsOk s.assertReset where
  rWidth := (Config.afterReset s.resets).r.isLt
  kWidth := (Config.afterReset s.resets).k.isLt
  sWidth := (Config.afterReset s.resets).s.isLt
  nWidth := (Config.afterReset s.resets).n.isLt

end Sys2Proof.Machine
end

