-- ==== Sys2Proof/Laws/Ops.lean ====
section
/-! SUPPORT. What the shared operations can do, one lemma each: loops, table reads and writes, failing and finishing,
the guards, Exp, Log and Mul. -/

namespace Sys2Proof.Machine

open Sys2Proof

/-! ### Loops (R9) -/

theorem mem_upTo {a b i : Nat} : i ∈ upTo a b ↔ a ≤ i ∧ i ≤ b := by
  simp only [upTo, List.mem_range'_1]
  omega

theorem mem_downTo {a b i : Nat} : i ∈ downTo a b ↔ b ≤ i ∧ i ≤ a := by
  simp [downTo, mem_upTo]

theorem upTo_empty {a b : Nat} (h : b < a) : upTo a b = [] := by
  simp [upTo, show b + 1 - a = 0 by omega]

theorem upTo_snoc {a b : Nat} (h : a ≤ b + 1) : upTo a (b + 1) = upTo a b ++ [b + 1] := by
  simp only [upTo]
  rw [show b + 1 + 1 - a = (b + 1 - a) + 1 by omega, List.range'_1_concat]
  simp [show a + (b + 1 - a) = b + 1 by omega]

theorem downTo_cons {a b : Nat} (h : b ≤ a + 1) : downTo (a + 1) b = (a + 1) :: downTo a b := by
  simp [downTo, upTo_snoc h]

/-! ### Tables -/

theorem readEntry_eq_ok {α : Type} {t : List α} {i : Nat} {v : α} : readEntry t i = .ok v ↔ t[i]? = some v := by
  unfold readEntry
  split <;> simp_all

theorem writeEntry_eq_ok {α : Type} {t t' : List α} {i : Nat} {v : α} :
    writeEntry t i v = .ok t' ↔ i < t.length ∧ t.set i v = t' := by
  unfold writeEntry
  split <;> simp_all

/-- A read after a write to the same entry gives the value written. -/
theorem read_after_write_same {α : Type} {t t' : List α} {i : Nat} {v : α} (h : writeEntry t i v = .ok t') :
    readEntry t' i = .ok v := by
  obtain ⟨hi, rfl⟩ := writeEntry_eq_ok.mp h
  exact readEntry_eq_ok.mpr (List.getElem?_set_self hi)

/-- A write leaves every other entry alone. -/
theorem read_after_write_other {α : Type} {t t' : List α} {i j : Nat} {v : α} (h : writeEntry t i v = .ok t')
    (hij : i ≠ j) : readEntry t' j = readEntry t j := by
  obtain ⟨-, rfl⟩ := writeEntry_eq_ok.mp h
  simp [readEntry, List.getElem?_set_ne hij]

/-- A write keeps the length of the table. -/
theorem writeEntry_length {α : Type} {t t' : List α} {i : Nat} {v : α} (h : writeEntry t i v = .ok t') :
    t'.length = t.length := by
  obtain ⟨-, rfl⟩ := writeEntry_eq_ok.mp h
  simp

/-! ### Ending a command -/

theorem fail_eq (st : Status) (s : State) : fail st s = .next (answered s (failResponse st)) := rfl

theorem finish_eq_next {s t : State} {x : Except Fault Response} :
    finish s x = .next t ↔ ∃ r, x = .ok r ∧ answered s r = t := by
  cases x <;> simp [finish, respond_eq_answered]

theorem finish_ok (s : State) (r : Response) : finish s (.ok r) = .next (answered s r) := rfl

theorem withField_valid {s : State} (h : s.fvalid = true) (body : Host.Outcome State Fault Refusal) :
    withField s body = body := by simp [withField, h]

theorem withField_invalid {s : State} (h : s.fvalid = false) (body : Host.Outcome State Fault Refusal) :
    withField s body = .next (answered s (failResponse .noContext)) := by simp [withField, h, fail_eq]

theorem withEncoder_valid {s : State} (h : s.evalid = true) (body : Host.Outcome State Fault Refusal) :
    withEncoder s body = body := by simp [withEncoder, h]

theorem withEncoder_invalid {s : State} (h : s.evalid = false) (body : Host.Outcome State Fault Refusal) :
    withEncoder s body = .next (answered s (failResponse .noContext)) := by simp [withEncoder, h, fail_eq]

/-! ### Operand checks -/

theorem orderOk_iff {r : BitVec 5} : orderOk r = true ↔ 2 ≤ r.toNat ∧ r.toNat ≤ 16 := by
  unfold orderOk
  rw [Bool.and_eq_true, decide_eq_true_iff, decide_eq_true_iff]
  rfl

theorem isElem_iff {f : FieldContext} {x : Elem} : isElem f x = true ↔ x.toNat < 2 ^ f.r := by
  simp [isElem]

theorem expIndexOk_iff {f : FieldContext} {i : BitVec 32} : expIndexOk f i = true ↔ i.toNat < 2 ^ f.r := by
  simp [expIndexOk]

theorem logIndexOk_iff {f : FieldContext} {x : BitVec 32} :
    logIndexOk f x = true ↔ x.toNat ≠ 0 ∧ x.toNat < 2 ^ f.r := by
  simp [logIndexOk]

theorem genIndexOk_iff {e : EncoderContext} {j : BitVec 32} : genIndexOk e j = true ↔ j.toNat ≤ 2 * e.s := by
  simp [genIndexOk]

theorem lengthOk_iff {e : EncoderContext} {len : BitVec 32} : lengthOk e len = true ↔ len.toNat = e.k := by
  simp [lengthOk]

theorem messageOk_iff {f : FieldContext} {m : List Elem} :
    messageOk f m = true ↔ ∀ x ∈ m, x.toNat < 2 ^ f.r := by
  simp [messageOk, isElem_iff]

theorem configOk_iff {cfg : Config} {k s : BitVec 16} {r : BitVec 5} :
    configOk cfg k s r = true ↔
      (2 ≤ r.toNat ∧ r.toNat ≤ 16) ∧ k.toNat ≠ 0 ∧ s.toNat ≠ 0 ∧
        (cfg.strictN = true → k.toNat + 2 * s.toNat ≤ 2 ^ r.toNat - 1) := by
  simp only [configOk, Bool.and_eq_true, orderOk_iff, bne_iff_ne, Bool.not_eq_true', Bool.and_eq_false_iff,
    decide_eq_false_iff_not, Nat.not_lt, and_assoc]
  cases cfg.strictN <;> simp

/-! ### Exp, Log, Mul (R43, R44, R45) -/

theorem expAt_eq_ok {f : FieldContext} {i : Nat} {v : Elem} :
    expAt f i = .ok v ↔ f.exp[i % (2 ^ f.r - 1)]? = some v := readEntry_eq_ok

theorem logAt_eq_ok {f : FieldContext} {x : Elem} {n : Nat} :
    logAt f x = .ok n ↔ ∃ l : LogValue, f.log[x.toNat]? = some (some l) ∧ l.toNat = n := by
  unfold logAt readEntry
  cases h : f.log[x.toNat]? with
  | none => simp
  | some o => cases o <;> simp

theorem mul_zero_operand {f : FieldContext} {x y : Elem} (h : x = 0 ∨ y = 0) : mul f x y = .ok 0 := by
  unfold mul
  exact if_pos h

/-- What Mul can answer: 0 when an operand is 0, else the EXP entry at the reduced sum of the logarithms. -/
theorem mul_eq_ok {f : FieldContext} {x y v : Elem} :
    mul f x y = .ok v ↔
      ((x = 0 ∨ y = 0) ∧ v = 0) ∨
        (x ≠ 0 ∧ y ≠ 0 ∧ ∃ lx ly, logAt f x = .ok lx ∧ logAt f y = .ok ly ∧ expAt f (lx + ly) = .ok v) := by
  by_cases h : x = 0 ∨ y = 0
  · rw [mul_zero_operand h]
    constructor
    · intro hv
      exact .inl ⟨h, (Except.ok.inj hv).symm⟩
    · rintro (⟨-, rfl⟩ | ⟨hx, hy, -⟩)
      · rfl
      · exact absurd h (not_or.mpr ⟨hx, hy⟩)
  · rw [show mul f x y = (logAt f x).bind fun lx => (logAt f y).bind fun ly => expAt f (lx + ly) from if_neg h]
    obtain ⟨hx, hy⟩ := not_or.mp h
    constructor
    · intro hv
      refine .inr ⟨hx, hy, ?_⟩
      cases hlx : logAt f x <;> cases hly : logAt f y <;> simp_all [Except.bind]
    · rintro (⟨h', -⟩ | ⟨-, -, lx, ly, e1, e2, e3⟩)
      · exact absurd h' h
      · rw [e1, e2]
        exact e3

end Sys2Proof.Machine
end

