-- ==== Sys2Proof/Laws/Field.lean ====
section
/-! SUPPORT. What FieldBuild leaves (40_field.md R42), for every constant in the place of PRIM[r]: EXP holds the iterates
of the step, LOG[x] the last index at which the loop produced x. -/

namespace Sys2Proof.Machine

open Sys2Proof

/-- The symbol after i steps from 1. -/
def alphaIter (poly : Poly) (r : Nat) : Nat → Elem
  | 0 => 1
  | i + 1 => alphaStep poly r (alphaIter poly r i)

/-- What LOG[x] holds after iterations 1 .. n: the last i at which the loop produced x. -/
def lastProduced (poly : Poly) (r : Nat) (x : Nat) : Nat → Option LogValue
  | 0 => none
  | n + 1 =>
    if (alphaIter poly r (n + 1)).toNat = x then some (BitVec.ofNat 16 (n + 1)) else lastProduced poly r x n

/-- The tables after iterations 1 .. n of R42's loop. -/
def fieldAfter (poly : Poly) (r n : Nat) : FieldContext := (upTo 1 n).foldl (fieldBuildStep poly r) (blankField r)

theorem fieldAfter_succ (poly : Poly) (r n : Nat) :
    fieldAfter poly r (n + 1) = fieldBuildStep poly r (fieldAfter poly r n) (n + 1) := by
  simp [fieldAfter, upTo_snoc]

theorem fieldAfter_shape (poly : Poly) (r n : Nat) :
    (fieldAfter poly r n).r = r ∧ (fieldAfter poly r n).exp.length = 2 ^ r ∧
      (fieldAfter poly r n).log.length = 2 ^ r := by
  induction n with
  | zero => simp [fieldAfter, upTo, blankField]
  | succ n ih =>
    rw [fieldAfter_succ]
    simpa [fieldBuildStep] using ih

theorem fieldAfter_exp (poly : Poly) (r n : Nat) (hn : n < 2 ^ r) (i : Nat) (hi : i ≤ n) :
    (fieldAfter poly r n).exp[i]? = some (alphaIter poly r i) := by
  induction n generalizing i with
  | zero =>
    obtain rfl : i = 0 := by omega
    simp [fieldAfter, upTo, blankField, alphaIter]
  | succ n ih =>
    have prev := ih (by omega) n le_rfl
    have len := (fieldAfter_shape poly r n).2.1
    rw [fieldAfter_succ]
    rcases Nat.eq_or_lt_of_le hi with rfl | h
    · simp [fieldBuildStep, List.getD, prev, len, hn, alphaIter]
    · simp only [fieldBuildStep]
      rw [List.getElem?_set_ne (by omega)]
      exact ih (by omega) i (by omega)

theorem fieldAfter_log (poly : Poly) (r n : Nat) (hn : n < 2 ^ r) (x : Nat) (hx : x < 2 ^ r) :
    (fieldAfter poly r n).log[x]? = some (lastProduced poly r x n) := by
  induction n with
  | zero => simp [fieldAfter, upTo, blankField, lastProduced, hx]
  | succ n ih =>
    have prev := fieldAfter_exp poly r n (by omega) n le_rfl
    have len := (fieldAfter_shape poly r n).2.2
    have hv : alphaStep poly r ((fieldAfter poly r n).exp.getD (n + 1 - 1) 0) = alphaIter poly r (n + 1) := by
      simp [List.getD, prev, alphaIter]
    rw [fieldAfter_succ]
    simp only [fieldBuildStep, hv, lastProduced]
    split
    · next h => rw [h]; simp [len, hx]
    · next h =>
      rw [List.getElem?_set_ne h]
      exact ih (by omega)

/-- FieldBuild(r) in one lemma: R is r, both tables have 2^r entries, EXP[i] is i steps from 1, and LOG[x] is the last
index at which the loop produced x, or no value if it never did. -/
theorem fieldBuild_spec (prim : PrimTable) (r : Nat) :
    (fieldBuild prim r).r = r ∧ (fieldBuild prim r).exp.length = 2 ^ r ∧ (fieldBuild prim r).log.length = 2 ^ r ∧
      (∀ i < 2 ^ r, (fieldBuild prim r).exp[i]? = some (alphaIter (primEntry prim r) r i)) ∧
      ∀ x < 2 ^ r, (fieldBuild prim r).log[x]? = some (lastProduced (primEntry prim r) r x (2 ^ r - 1)) := by
  have hn : 2 ^ r - 1 < 2 ^ r := Nat.sub_lt (Nat.two_pow_pos r) (by decide)
  have shape := fieldAfter_shape (primEntry prim r) r (2 ^ r - 1)
  refine ⟨shape.1, shape.2.1, shape.2.2, fun i hi => ?_, fun x hx => ?_⟩
  · exact fieldAfter_exp _ _ _ hn i (by omega)
  · exact fieldAfter_log _ _ _ hn x hx

@[simp] theorem fieldBuild_r (prim : PrimTable) (r : Nat) : (fieldBuild prim r).r = r := (fieldBuild_spec prim r).1

end Sys2Proof.Machine
end

