-- ==== Sys2Proof/Laws/Exec.lean ====
section
/-! SUPPORT. What a command and a step can do, said once: the inversion lemmas that proofs cite instead of unfolding
exec and step. -/

namespace Sys2Proof.Machine

open Sys2Proof

theorem okResponse_wf (v : BitVec 32) (p : List Elem) : (okResponse v p).wf := fun h => absurd rfl h

theorem failResponse_wf (st : Status) : (failResponse st).wf := fun _ => ⟨rfl, rfl⟩

/-- How a command can end in a next state: it answers and writes nothing, or it is a GFINIT or an ENCINIT that its
checks let through, which writes its contexts and answers OK 0. -/
inductive Ends (i : Instr) (s : State) : State → Prop where
  | answers (r : Response) (proper : r.wf) : Ends i s (answered s r)
  | builtField (r : BitVec 5) (isGfinit : i = .gfinit r) (order : orderOk r = true) :
      Ends i s (answered (s.installField (fieldBuild s.cfg.prim r.toNat)) (okResponse 0 []))
  | builtEncoder (k sc : BitVec 16) (r : BitVec 5) (gen : List Elem) (isEncinit : i = .encinit k sc r)
      (accepted : configOk s.cfg k sc r = true) (built : genBuild (fieldBuild s.cfg.prim r.toNat) sc.toNat = .ok gen) :
      Ends i s
        (answered
          (s.installEncoder (fieldBuild s.cfg.prim r.toNat)
            { k := k.toNat, s := sc.toNat, n := k.toNat + 2 * sc.toNat, gen := gen })
          (okResponse 0 []))

section Answering

variable {i : Instr} {s t : State}

theorem ends_of_fail {st : Status} (h : fail st s = .next t) : Ends i s t := by
  obtain rfl : answered s (failResponse st) = t := by simpa [fail_eq] using h
  exact .answers _ (failResponse_wf st)

theorem ends_of_finish {x : Except Fault Response} (wf : ∀ r, x = .ok r → r.wf) (h : finish s x = .next t) :
    Ends i s t := by
  obtain ⟨r, hr, rfl⟩ := finish_eq_next.mp h
  exact .answers r (wf r hr)

theorem ends_of_withField {body : Host.Outcome State Fault Refusal} (hb : body = .next t → Ends i s t)
    (h : withField s body = .next t) : Ends i s t := by
  unfold withField at h
  split at h
  · exact hb h
  · exact ends_of_fail h

theorem ends_of_withEncoder {body : Host.Outcome State Fault Refusal} (hb : body = .next t → Ends i s t)
    (h : withEncoder s body = .next t) : Ends i s t := by
  unfold withEncoder at h
  split at h
  · exact hb h
  · exact ends_of_fail h

theorem ends_of_ite {c : Prop} [Decidable c] {a b : Host.Outcome State Fault Refusal} (ha : a = .next t → Ends i s t)
    (hb : b = .next t → Ends i s t) (h : (if c then a else b) = .next t) : Ends i s t := by
  split at h
  · exact ha h
  · exact hb h

/-- A result followed by `okResponse` is a proper response. -/
theorem wf_of_bind {α : Type} {x : Except Fault α} {g : α → Response} (hg : ∀ a, (g a).wf) (r : Response)
    (h : (x >>= fun a => pure (g a)) = .ok r) : r.wf := by
  cases x with
  | error e => exact absurd h (by simp [Bind.bind, Except.bind])
  | ok a =>
    obtain rfl : g a = r := by simpa [Bind.bind, Except.bind, pure, Except.pure] using h
    exact hg a

end Answering

/-- Every command's ends (R22, R70): the one lemma that unfolds the meanings. -/
theorem exec_ends {i : Instr} {s t : State} (h : exec i s = .next t) : Ends i s t := by
  cases i with
  | gfinit r =>
    change (if orderOk r then _ else _) = _ at h
    split at h
    · next ho =>
      cases h
      exact .builtField r rfl ho
    · exact ends_of_fail h
  | encinit k sc r =>
    change execEncinit k sc r s = _ at h
    unfold execEncinit at h
    split at h
    · next hc =>
      dsimp only at h
      split at h
      · next gen hg =>
        cases h
        exact .builtEncoder k sc r gen rfl hc hg
      · exact absurd h (by simp)
    · exact ends_of_fail h
  | gfexp x => exact ends_of_withField (ends_of_finish (wf_of_bind fun _ => okResponse_wf _ _)) h
  | gfmul x y =>
    exact ends_of_withField (ends_of_ite (ends_of_finish (wf_of_bind fun _ => okResponse_wf _ _)) ends_of_fail) h
  | rdexp x =>
    exact ends_of_withField (ends_of_ite (ends_of_finish (wf_of_bind fun _ => okResponse_wf _ _)) ends_of_fail) h
  | rdlog x =>
    exact ends_of_withField (ends_of_ite (ends_of_finish (wf_of_bind fun _ => okResponse_wf _ _)) ends_of_fail) h
  | rdgen j =>
    exact ends_of_withEncoder (ends_of_ite (ends_of_finish (wf_of_bind fun _ => okResponse_wf _ _)) ends_of_fail) h
  | encpar len m =>
    exact ends_of_withEncoder
      (ends_of_ite ends_of_fail
        (ends_of_ite ends_of_fail (ends_of_finish (wf_of_bind fun _ => okResponse_wf _ _)))) h

/-- Where a step can come from (R11): idling, a reset move, an illegal word, or a command. -/
theorem step_cases {s t : State} (h : step s = .next t) :
    (s.inbox = [] ∧ t = s) ∨
      (∃ rest, s.inbox = .reset :: rest ∧ t = State.assertReset { s with inbox := rest }) ∨
      (∃ p rest e, s.inbox = .command p :: rest ∧ decode p.cw p.payload = .error e ∧
        t = answered { s with inbox := rest } (failResponse .illegalCommand)) ∨
      ∃ p rest i, s.inbox = .command p :: rest ∧ decode p.cw p.payload = .ok i ∧
        exec i { s with inbox := rest } = .next t := by
  unfold step at h
  split at h
  · next hi => exact .inl ⟨hi, by simpa [idle] using h.symm⟩
  · next p rest hi =>
    unfold runPacket at h
    split at h
    · next i hd => exact .inr (.inr (.inr ⟨p, rest, i, hi, hd, h⟩))
    · next e hd =>
      refine .inr (.inr (.inl ⟨p, rest, e, hi, hd, ?_⟩))
      simpa [answerIllegal, fail_eq] using h.symm
  · next rest hi => exact .inr (.inl ⟨rest, hi, by simpa using h.symm⟩)

end Sys2Proof.Machine
end

