-- ==== Sys2Proof/Laws/Loops.lean ====
section
/-! SUPPORT. Loops that may fault keep what each iteration keeps; hence the lengths of GEN and of the parity
(41_generator.md R55; 42_encoder.md R60). -/

namespace Sys2Proof.Machine

open Sys2Proof

/-- The induction over a loop, packaged once: what holds before the loop and is kept by each of its iterations holds
after it. -/
theorem loop_keeps {α β : Type} {P : β → Prop} {body : β → α → Except Fault β}
    (keeps : ∀ b a b', P b → body b a = .ok b' → P b') (l : List α) {b b' : β} (hb : P b)
    (h : l.foldlM body b = .ok b') : P b' := by
  induction l generalizing b with
  | nil =>
    obtain rfl : b = b' := by simpa [pure, Except.pure] using h
    exact hb
  | cons a l ih =>
    rw [List.foldlM_cons] at h
    cases h1 : body b a with
    | error e => simp [h1, Bind.bind, Except.bind] at h
    | ok b1 =>
      rw [h1] at h
      exact ih (keeps b a b1 hb h1) h

/-- A sequence of two operations answers only if both do. -/
theorem bind_eq_ok {α β : Type} {x : Except Fault α} {g : α → Except Fault β} {b : β} :
    (x >>= g) = .ok b ↔ ∃ a, x = .ok a ∧ g a = .ok b := by
  cases x <;> simp [Bind.bind, Except.bind]

theorem genInner_length {f : FieldContext} {i j : Nat} {gen gen' : List Elem} (h : genInner f i gen j = .ok gen') :
    gen'.length = gen.length := by
  simp only [genInner, bind_eq_ok] at h
  obtain ⟨_, -, _, -, _, -, _, -, hw⟩ := h
  exact writeEntry_length hw

theorem genStep_length {f : FieldContext} {i : Nat} {gen gen' : List Elem} (h : genStep f gen i = .ok gen') :
    gen'.length = gen.length := by
  simp only [genStep, bind_eq_ok] at h
  obtain ⟨g1, h1, g2, h2, _, -, h3⟩ := h
  rw [writeEntry_length h3, ← writeEntry_length h1]
  exact loop_keeps (P := fun g => g.length = g1.length) (fun _ _ _ hb hs => (genInner_length hs).trans hb) _ rfl h2

/-- GenBuild(s), where it answers, answers 2s + 1 coefficients. -/
theorem genBuild_length {f : FieldContext} {s : Nat} {gen : List Elem} (h : genBuild f s = .ok gen) :
    gen.length = 2 * s + 1 :=
  loop_keeps (P := fun g => g.length = 2 * s + 1) (fun _ _ _ hb hs => (genStep_length hs).trans hb) _
    (by simp [genStart]) h

theorem parityInner_length {f : FieldContext} {e : EncoderContext} {i j : Nat} {c : Elem} {buf buf' : List Elem}
    (h : parityInner f e i c buf j = .ok buf') : buf'.length = buf.length := by
  simp only [parityInner, bind_eq_ok] at h
  obtain ⟨_, -, _, -, _, -, hw⟩ := h
  exact writeEntry_length hw

theorem parityStep_length {f : FieldContext} {e : EncoderContext} {i : Nat} {buf buf' : List Elem}
    (h : parityStep f e buf i = .ok buf') : buf'.length = buf.length := by
  unfold parityStep at h
  obtain ⟨c, -, h⟩ := bind_eq_ok.mp h
  split at h
  · obtain rfl : buf = buf' := by simpa [pure, Except.pure] using h
    rfl
  · obtain ⟨b1, h1, h2⟩ := bind_eq_ok.mp h
    rw [writeEntry_length h2]
    exact loop_keeps (P := fun b => b.length = buf.length) (fun _ _ _ hb hs => (parityInner_length hs).trans hb) _ rfl h1

/-- BUF before the division has N symbols. -/
theorem parityStart_length {e : EncoderContext} {m buf : List Elem} (h : parityStart e m = .ok buf) :
    buf.length = e.n := by
  refine loop_keeps (P := fun b => b.length = e.n) (fun b t b' hb hs => ?_) _ (by simp) h
  simp only [placeSymbol, bind_eq_ok] at hs
  obtain ⟨_, -, hw⟩ := hs
  exact (writeEntry_length hw).trans hb

/-- ParityDivide, where it answers, answers 2S symbols when N holds at least as many. -/
theorem parityDivide_length {f : FieldContext} {e : EncoderContext} {m p : List Elem} (hn : 2 * e.s ≤ e.n)
    (h : parityDivide f e m = .ok p) : p.length = 2 * e.s := by
  simp only [parityDivide, bind_eq_ok] at h
  obtain ⟨b0, h0, b1, h1, h2⟩ := h
  obtain rfl : b1.take (2 * e.s) = p := by simpa [pure, Except.pure] using h2
  have len : b1.length = e.n :=
    loop_keeps (P := fun b => b.length = e.n) (fun _ _ _ hb hs => (parityStep_length hs).trans hb) _
      (parityStart_length h0) h1
  rw [List.length_take, len]
  omega

end Sys2Proof.Machine
end

