-- ==== Sys2Proof/Laws/PerInstr.lean ====
section
/-! SUPPORT. The family Framing, one lemma per command: the payload of a well-formed command has as many words as its
command word asks for (30_encoding.md R34, R37). -/

namespace Sys2Proof.Laws.Framing

open Sys2Proof

/-- The encoder gives a well-formed command a payload of the length that its own word announces. -/
def Statement (i : Instr) : Prop := i.wf = true → (encodePayload i).length = payloadLength (encodeWord i)

/-- OP of an assembled word. -/
theorem cwOp_assemble (op : BitVec 4) (a : BitVec 5) (b c : BitVec 16) : cwOp (assemble op a b c) = op := by
  ext k hk
  simp only [cwOp, assemble, BitVec.getElem_extractLsb', BitVec.getLsbD_or, BitVec.getLsbD_shiftLeft,
    BitVec.getLsbD_setWidth]
  have hb : b.getLsbD (60 + k - 16) = false := BitVec.getLsbD_of_ge _ _ (by omega)
  have hc : c.getLsbD (60 + k) = false := BitVec.getLsbD_of_ge _ _ (by omega)
  have ha : a.getLsbD (60 + k - 32) = false := BitVec.getLsbD_of_ge _ _ (by omega)
  have e1 : 60 + k < 64 := by omega
  have e2 : k < 64 := by omega
  simp [hb, hc, ha, e1, e2, BitVec.getLsbD_eq_getElem hk]

/-- X of an assembled FX word. -/
theorem cwX_assembleX (op : BitVec 4) (x : BitVec 32) : cwX (assembleX op x) = x := by
  ext k hk
  simp only [cwX, assembleX, assemble, BitVec.getElem_extractLsb', BitVec.getLsbD_or, BitVec.getLsbD_shiftLeft,
    BitVec.getLsbD_setWidth, BitVec.getLsbD_extractLsb']
  have e1 : k < 64 := by omega
  have e2 : k < 60 := by omega
  rcases Nat.lt_or_ge k 16 with h | h
  · simp [h, hk, e1, e2, BitVec.getLsbD_eq_getElem]
  · have h' : k - 16 < 16 := by omega
    have h'' : 16 + (k - 16) = k := by omega
    have h3 : ¬ k < 16 := by omega
    have h4 : k - 16 < 64 := by omega
    simp [h', h'', h3, h4, hk, e1, e2, BitVec.getLsbD_eq_getElem]

theorem payloadLength_other (op : BitVec 4) (a : BitVec 5) (b c : BitVec 16) (h : op ≠ 0x5) :
    payloadLength (assemble op a b c) = 0 := by
  unfold payloadLength
  rw [cwOp_assemble]
  exact if_neg h

theorem gfinit (r : BitVec 5) : Statement (.gfinit r) := fun _ => (payloadLength_other _ _ _ _ (by decide)).symm
theorem gfexp (x : BitVec 32) : Statement (.gfexp x) := fun _ => (payloadLength_other _ _ _ _ (by decide)).symm
theorem gfmul (x y : Elem) : Statement (.gfmul x y) := fun _ => (payloadLength_other _ _ _ _ (by decide)).symm
theorem encinit (k s : BitVec 16) (r : BitVec 5) : Statement (.encinit k s r) :=
  fun _ => (payloadLength_other _ _ _ _ (by decide)).symm
theorem encpar (len : BitVec 32) (m : List Elem) : Statement (.encpar len m) := by
  intro h
  have hlen : payloadLength (encodeWord (.encpar len m)) = len.toNat := by
    unfold payloadLength encodeWord
    rw [cwX_assembleX]
    exact if_pos (cwOp_assemble _ _ _ _)
  rw [hlen]
  simpa [encodePayload, Instr.wf] using h
theorem rdexp (i : BitVec 32) : Statement (.rdexp i) := fun _ => (payloadLength_other _ _ _ _ (by decide)).symm
theorem rdlog (x : BitVec 32) : Statement (.rdlog x) := fun _ => (payloadLength_other _ _ _ _ (by decide)).symm
theorem rdgen (j : BitVec 32) : Statement (.rdgen j) := fun _ => (payloadLength_other _ _ _ _ (by decide)).symm

end Sys2Proof.Laws.Framing
end

