-- ==== Sys2Proof/Laws/Primitive.lean ====
section
/-! SUPPORT. The doubling sequence of 10_state.md R12: it stays in the field, one step is injective, and a sequence that
first returns to 1 after 2^r - 1 steps is primitive. The default PRIM table is admissible. -/

namespace Sys2Proof.Machine

open Sys2Proof

section Shape

variable {poly r : Nat}

theorem testBit_above {p i n : Nat} (h : p < 2 ^ n) (hi : n ≤ i) : p.testBit i = false :=
  Nat.testBit_lt_two_pow (lt_of_lt_of_le h (Nat.pow_le_pow_right (by decide) hi))

/-- A step keeps a symbol below 2^r. -/
theorem stepNat_lt (hr : 1 ≤ r) (top : poly.testBit r = true) (deg : poly < 2 ^ (r + 1)) {p : Nat} (hp : p < 2 ^ r) :
    stepNat poly r p < 2 ^ r := by
  apply Nat.lt_pow_two_of_testBit
  intro i hi
  have hi1 : 1 ≤ i := le_trans hr hi
  unfold stepNat
  rcases Nat.eq_or_lt_of_le hi with rfl | hlt
  · split
    · next hb => simp [Nat.testBit_xor, Nat.testBit_shiftLeft, hi1, hb, top]
    · next hb => simp [Nat.testBit_shiftLeft, hb]
  · have h1 : p.testBit (i - 1) = false := testBit_above hp (by omega)
    have h2 : poly.testBit i = false := testBit_above deg hlt
    split <;> simp [Nat.testBit_xor, Nat.testBit_shiftLeft, h1, h2]

/-- Two symbols with the same successor are the same: bit 0 of the successor tells whether the XOR was made. -/
theorem stepNat_injective (bottom : poly.testBit 0 = true) {p q : Nat}
    (h : stepNat poly r p = stepNat poly r q) : p = q := by
  have even : ∀ x : Nat, (x <<< 1).testBit 0 = false := fun x => by rw [Nat.testBit_shiftLeft]; rfl
  unfold stepNat at h
  have shift : p <<< 1 = q <<< 1 → p = q := by
    intro e
    simpa [Nat.shiftLeft_eq] using e
  split at h <;> split at h
  · exact shift (Nat.xor_left_inj.mp h)
  · have h0 := congrArg (Nat.testBit · 0) h
    simp only [Nat.testBit_xor, even, bottom] at h0
    exact absurd h0 (by decide)
  · have h0 := congrArg (Nat.testBit · 0) h
    simp only [Nat.testBit_xor, even, bottom] at h0
    exact absurd h0 (by decide)
  · exact shift h

theorem alphaPow_lt (hr : 1 ≤ r) (top : poly.testBit r = true) (deg : poly < 2 ^ (r + 1)) (i : Nat) :
    alphaPow poly r i < 2 ^ r := by
  induction i with
  | zero => exact Nat.one_lt_two_pow (by omega)
  | succ i ih => exact stepNat_lt hr top deg ih

/-- Equal powers at distance d make alpha^d the power 0. -/
theorem alphaPow_return (bottom : poly.testBit 0 = true) (i d : Nat)
    (h : alphaPow poly r (i + d) = alphaPow poly r i) : alphaPow poly r d = 1 := by
  induction i with
  | zero => simpa [alphaPow] using h
  | succ i ih => exact ih (stepNat_injective bottom (by simpa [alphaPow, Nat.succ_add] using h))

/-- A polynomial of the right shape whose sequence does not return to 1 before 2^r - 1 is primitive. -/
theorem primitive_of_first_return (top : poly.testBit r = true) (bottom : poly.testBit 0 = true)
    (deg : poly < 2 ^ (r + 1)) (first : ∀ d, 1 ≤ d → d < 2 ^ r - 1 → alphaPow poly r d ≠ 1)
    (period : alphaPow poly r (2 ^ r - 1) = 1) : Primitive poly r where
  top := top
  bottom := bottom
  degree := deg
  period := period
  distinct := by
    have key : ∀ i j, j < 2 ^ r - 1 → i < j → alphaPow poly r i ≠ alphaPow poly r j := by
      intro i j hj hij he
      refine first (j - i) (by omega) (by omega) (alphaPow_return bottom i (j - i) ?_)
      rw [Nat.add_sub_cancel' hij.le, he]
    intro i hi j hj he
    rcases Nat.lt_trichotomy i j with h | h | h
    · exact absurd he (key i j hj h)
    · exact h
    · exact absurd he.symm (key j i hi h)

end Shape

/-! ### Searching for the first return, in a form the kernel runs fast -/

/-- n steps from p on plain numbers, 0 as soon as a step would start from 1. -/
def walk (poly half n : Nat) : Nat → Nat :=
  Nat.rec (motive := fun _ => Nat → Nat) (fun p => p)
    (fun _ ih p => cond (Nat.beq p 1) 0 (ih (Nat.xor (Nat.mul 2 p) (Nat.mul poly (Nat.div p half))))) n

/-- `n` walks of `m` steps each. -/
def walks (poly half m n : Nat) : Nat → Nat :=
  Nat.rec (motive := fun _ => Nat → Nat) (fun p => p) (fun _ ih p => ih (walk poly half m p)) n

theorem walk_zero_start (poly half n : Nat) : walk poly half n 0 = 0 := by
  induction n with
  | zero => rfl
  | succ n ih =>
    show cond (Nat.beq 0 1) 0 (walk poly half n (Nat.xor (Nat.mul 2 0) (Nat.mul poly (Nat.div 0 half)))) = 0
    have stay : Nat.xor (Nat.mul 2 0) (Nat.mul poly (Nat.div 0 half)) = 0 := by
      show (2 * 0) ^^^ (poly * (0 / half)) = 0
      simp
    rw [stay, ih]
    rfl

theorem walks_zero_start (poly half m n : Nat) : walks poly half m n 0 = 0 := by
  induction n with
  | zero => rfl
  | succ n ih =>
    show walks poly half m n (walk poly half m 0) = 0
    rw [walk_zero_start, ih]

section Walk

variable {poly r : Nat}

theorem fast_step (hr : 1 ≤ r) {p : Nat} (hp : p < 2 ^ r) :
    Nat.xor (Nat.mul 2 p) (Nat.mul poly (Nat.div p (2 ^ (r - 1)))) = stepNat poly r p := by
  show (2 * p) ^^^ (poly * (p / 2 ^ (r - 1))) = stepNat poly r p
  have hlt : p / 2 ^ (r - 1) < 2 := by
    rw [Nat.div_lt_iff_lt_mul (Nat.two_pow_pos _)]
    calc p < 2 ^ r := hp
      _ = 2 * 2 ^ (r - 1) := by rw [← Nat.pow_succ', Nat.succ_eq_add_one, Nat.sub_add_cancel hr]
  have hb : p.testBit (r - 1) = decide (p / 2 ^ (r - 1) % 2 = 1) := Nat.testBit_eq_decide_div_mod_eq
  unfold stepNat
  rw [hb, Nat.shiftLeft_eq, Nat.mul_comm p]
  rcases Nat.lt_or_ge (p / 2 ^ (r - 1)) 1 with h | h
  · have : p / 2 ^ (r - 1) = 0 := Nat.lt_one_iff.mp h
    simp [this]
  · have : p / 2 ^ (r - 1) = 1 := Nat.le_antisymm (Nat.le_of_lt_succ hlt) h
    simp [this]

theorem walk_spec (hr : 1 ≤ r) (top : poly.testBit r = true) (deg : poly < 2 ^ (r + 1)) (n a : Nat)
    (h : walk poly (2 ^ (r - 1)) n (alphaPow poly r a) ≠ 0) :
    (∀ i < n, alphaPow poly r (a + i) ≠ 1) ∧
      walk poly (2 ^ (r - 1)) n (alphaPow poly r a) = alphaPow poly r (a + n) := by
  induction n generalizing a with
  | zero => exact ⟨fun i hi => absurd hi (Nat.not_lt_zero i), rfl⟩
  | succ n ih =>
    have unfolded : walk poly (2 ^ (r - 1)) (n + 1) (alphaPow poly r a) =
        cond (Nat.beq (alphaPow poly r a) 1) 0 (walk poly (2 ^ (r - 1)) n (alphaPow poly r (a + 1))) := by
      show cond _ 0 (walk poly (2 ^ (r - 1)) n _) = _
      rw [fast_step hr (alphaPow_lt hr top deg a)]
      rfl
    rw [unfolded] at h ⊢
    cases hb : Nat.beq (alphaPow poly r a) 1 with
    | true => simp [hb] at h
    | false =>
      simp only [hb, cond_false] at h ⊢
      obtain ⟨h1, h2⟩ := ih (a + 1) h
      refine ⟨fun i hi => ?_, by rw [h2]; congr 1; omega⟩
      cases i with
      | zero => exact Nat.ne_of_beq_eq_false hb
      | succ i =>
        rw [show a + (i + 1) = a + 1 + i by omega]
        exact h1 i (by omega)

theorem walks_spec (hr : 1 ≤ r) (top : poly.testBit r = true) (deg : poly < 2 ^ (r + 1)) (m n a : Nat)
    (h : walks poly (2 ^ (r - 1)) m n (alphaPow poly r a) ≠ 0) :
    (∀ i < n * m, alphaPow poly r (a + i) ≠ 1) ∧
      walks poly (2 ^ (r - 1)) m n (alphaPow poly r a) = alphaPow poly r (a + n * m) := by
  induction n generalizing a with
  | zero => exact ⟨fun i hi => absurd hi (by omega), by simp [walks]⟩
  | succ n ih =>
    have unfolded : walks poly (2 ^ (r - 1)) m (n + 1) (alphaPow poly r a) =
        walks poly (2 ^ (r - 1)) m n (walk poly (2 ^ (r - 1)) m (alphaPow poly r a)) := rfl
    rw [unfolded] at h ⊢
    have hw : walk poly (2 ^ (r - 1)) m (alphaPow poly r a) ≠ 0 := by
      intro h0
      rw [h0, walks_zero_start] at h
      exact h rfl
    obtain ⟨w1, w2⟩ := walk_spec hr top deg m a hw
    rw [w2] at h ⊢
    obtain ⟨h1, h2⟩ := ih (a + m) h
    refine ⟨fun i hi => ?_, by rw [h2]; congr 1; ring⟩
    rcases Nat.lt_or_ge i m with hlt | hge
    · exact w1 i hlt
    · have := h1 (i - m) (by rw [Nat.succ_mul] at hi; omega)
      rwa [show a + m + (i - m) = a + i by omega] at this

/-- Primitivity by running the sequence: n walks of m steps and l steps more, 2^r - 2 in all, from alpha to 1. -/
theorem primitive_of_walks (m n l : Nat) (hr : 1 ≤ r) (total : 2 + n * m + l = 2 ^ r)
    (top : poly.testBit r = true) (bottom : poly.testBit 0 = true) (deg : poly < 2 ^ (r + 1))
    (h : Nat.beq (walk poly (2 ^ (r - 1)) l (walks poly (2 ^ (r - 1)) m n (stepNat poly r 1))) 1 = true) :
    Primitive poly r := by
  have h1 := Nat.eq_of_beq_eq_true h
  change walk _ _ _ (walks _ _ _ _ (alphaPow poly r 1)) = 1 at h1
  have hws : walks poly (2 ^ (r - 1)) m n (alphaPow poly r 1) ≠ 0 := by
    intro h0
    rw [h0, walk_zero_start] at h1
    exact absurd h1 (by decide)
  obtain ⟨a1, a2⟩ := walks_spec hr top deg m n 1 hws
  rw [a2] at h1
  obtain ⟨b1, b2⟩ := walk_spec hr top deg l (1 + n * m) (by rw [h1]; decide)
  refine primitive_of_first_return top bottom deg (fun d hd hlt => ?_) ?_
  · rcases Nat.lt_or_ge (d - 1) (n * m) with hlt' | hge
    · have := a1 (d - 1) hlt'
      rwa [show 1 + (d - 1) = d by omega] at this
    · have := b1 (d - (1 + n * m)) (by omega)
      rwa [show 1 + n * m + (d - (1 + n * m)) = d by omega] at this
  · rw [← h1, b2]
    congr 1
    omega

end Walk

/-! ### The default table -/

theorem primAt_standard_2 : PrimAt PrimTable.standard 2 :=
  primitive_of_walks 0 0 2 (by decide) (by decide) (by decide) (by decide) (by decide) (by decide +kernel)
theorem primAt_standard_3 : PrimAt PrimTable.standard 3 :=
  primitive_of_walks 0 0 6 (by decide) (by decide) (by decide) (by decide) (by decide) (by decide +kernel)
theorem primAt_standard_4 : PrimAt PrimTable.standard 4 :=
  primitive_of_walks 0 0 14 (by decide) (by decide) (by decide) (by decide) (by decide) (by decide +kernel)
theorem primAt_standard_5 : PrimAt PrimTable.standard 5 :=
  primitive_of_walks 0 0 30 (by decide) (by decide) (by decide) (by decide) (by decide) (by decide +kernel)
theorem primAt_standard_6 : PrimAt PrimTable.standard 6 :=
  primitive_of_walks 0 0 62 (by decide) (by decide) (by decide) (by decide) (by decide) (by decide +kernel)
theorem primAt_standard_7 : PrimAt PrimTable.standard 7 :=
  primitive_of_walks 0 0 126 (by decide) (by decide) (by decide) (by decide) (by decide) (by decide +kernel)
theorem primAt_standard_8 : PrimAt PrimTable.standard 8 :=
  primitive_of_walks 16 15 14 (by decide) (by decide) (by decide) (by decide) (by decide) (by decide +kernel)
theorem primAt_standard_9 : PrimAt PrimTable.standard 9 :=
  primitive_of_walks 16 31 14 (by decide) (by decide) (by decide) (by decide) (by decide) (by decide +kernel)
theorem primAt_standard_10 : PrimAt PrimTable.standard 10 :=
  primitive_of_walks 32 31 30 (by decide) (by decide) (by decide) (by decide) (by decide) (by decide +kernel)
theorem primAt_standard_11 : PrimAt PrimTable.standard 11 :=
  primitive_of_walks 32 63 30 (by decide) (by decide) (by decide) (by decide) (by decide) (by decide +kernel)
theorem primAt_standard_12 : PrimAt PrimTable.standard 12 :=
  primitive_of_walks 64 63 62 (by decide) (by decide) (by decide) (by decide) (by decide) (by decide +kernel)
theorem primAt_standard_13 : PrimAt PrimTable.standard 13 :=
  primitive_of_walks 64 127 62 (by decide) (by decide) (by decide) (by decide) (by decide) (by decide +kernel)
theorem primAt_standard_14 : PrimAt PrimTable.standard 14 :=
  primitive_of_walks 128 127 126 (by decide) (by decide) (by decide) (by decide) (by decide) (by decide +kernel)
theorem primAt_standard_15 : PrimAt PrimTable.standard 15 :=
  primitive_of_walks 128 255 126 (by decide) (by decide) (by decide) (by decide) (by decide) (by decide +kernel)
theorem primAt_standard_16 : PrimAt PrimTable.standard 16 :=
  primitive_of_walks 256 255 254 (by decide) (by decide) (by decide) (by decide) (by decide) (by decide +kernel)

/-- Every entry of the default table of R12 is primitive, and entries 2 and 10 are the pinned ones. -/
theorem primAdmissible_standard : PrimAdmissible PrimTable.standard where
  pinned2 := rfl
  pinned10 := rfl
  primitive := by
    intro r lo hi
    have lo' : 2 ≤ r := lo
    have hi' : r ≤ 16 := hi
    interval_cases r
    · exact primAt_standard_2
    · exact primAt_standard_3
    · exact primAt_standard_4
    · exact primAt_standard_5
    · exact primAt_standard_6
    · exact primAt_standard_7
    · exact primAt_standard_8
    · exact primAt_standard_9
    · exact primAt_standard_10
    · exact primAt_standard_11
    · exact primAt_standard_12
    · exact primAt_standard_13
    · exact primAt_standard_14
    · exact primAt_standard_15
    · exact primAt_standard_16

end Sys2Proof.Machine
end

