-- ==== Sys2Proof/Tests/Slice0.lean ====
section
/-! SUPPORT. The model's own tests: every expected value stands in spec/ at the place its comment names. After them, one
witness for the hypotheses of every statement that has any. -/

namespace Sys2Proof.Tests

open Sys2Proof Sys2Proof.Machine

/-! ### Well-formedness -/

-- R37: payload length = LEN.
theorem test_wf_refuses_short_payload : (Instr.encpar 3 [1, 2]).wf = false := by decide
theorem test_wf_refuses_long_payload : (Instr.encpar 1 [1, 2]).wf = false := by decide
theorem test_wf_accepts_exact_payload : (Instr.encpar 2 [1, 2]).wf = true := by decide

/-! ### Decoding, the words written out bit by bit from the formats of R36 and the opcodes of R38 -/

-- FR: oooo, 23 zeros, rrrrr, 32 zeros.
theorem test_decode_gfinit :
    decode (0b0001#4 ++ 0#23 ++ 0b00011#5 ++ 0#32 : BitVec 64) [] = .ok (.gfinit 3) := by decide
-- FX: oooo, 28 zeros, 32 bits of X.
theorem test_decode_gfexp :
    decode (0b0010#4 ++ 0#28 ++ 0b00000000000000010000000000100100#32 : BitVec 64) [] = .ok (.gfexp 0x10024) := by decide
-- FBC: oooo, 28 zeros, x, y.
theorem test_decode_gfmul :
    decode (0b0011#4 ++ 0#28 ++ 0b0000001000000000#16 ++ 0b0000000000000010#16 : BitVec 64) [] = .ok (.gfmul 512 2) := by
  decide
-- FABC: oooo, 23 zeros, r, k, s.
theorem test_decode_encinit :
    decode (0b0100#4 ++ 0#23 ++ 0b01010#5 ++ 0b0000001000000000#16 ++ 0b0000000000000100#16 : BitVec 64) [] =
      .ok (.encinit 512 4 10) := by decide
theorem test_decode_encpar :
    decode (0b0101#4 ++ 0#28 ++ 0b00000000000000000000000000000010#32 : BitVec 64) [7, 9] = .ok (.encpar 2 [7, 9]) := by
  decide
theorem test_decode_rdexp :
    decode (0b0110#4 ++ 0#28 ++ 0b00000000000000000000000000001000#32 : BitVec 64) [] = .ok (.rdexp 8) := by decide
theorem test_decode_rdlog :
    decode (0b0111#4 ++ 0#28 ++ 0b00000000000000000000000000000101#32 : BitVec 64) [] = .ok (.rdlog 5) := by decide
theorem test_decode_rdgen :
    decode (0b1000#4 ++ 0#28 ++ 0b00000000000000000000000000000100#32 : BitVec 64) [] = .ok (.rdgen 4) := by decide
-- 95_test_vectors.md section 5, "Illegal words".
theorem test_decode_illegal_words :
    [0x0000000000000000, 0x9000000000000000, 0xF000000000000000, 0x1000002300000000, 0x1000000300000005,
      0x2000000100000000, 0x3000000100010001].all (fun w : CommandWord => match decode w [] with
        | .ok _ => false
        | .error _ => true) = true := by decide
-- 95_test_vectors.md section 5, "Assembly".
theorem test_encode_words :
    [Instr.gfinit 16, .gfexp 10, .gfmul 9 13, .encinit 11 2 4, .encpar 11 [], .rdexp 15, .rdlog 9, .rdgen 8].map
        encodeWord =
      [0x1000001000000000, 0x200000000000000A, 0x300000000009000D, 0x40000004000B0002, 0x500000000000000B,
        0x600000000000000F, 0x7000000000000009, 0x8000000000000008] := by decide

/-! ### Fetching from a number -/

theorem test_table_word_encpar : decodeTableWord 64 0x5000000000000002 = some (.encpar 2 [0, 0]) := by decide
theorem test_table_word_illegal : decodeTableWord 64 0x1000000300000005 = none := by decide

/-! ### Commands -/

/-- What the next step answers when the host issues a word without payload, or with one: the response word and
payload. -/
def sent (s : State) (p : Packet) : Option (ResponseWord × List Elem) :=
  match step { s with inbox := [.command p] } with
  | .next t => t.outbox.getLast?.map fun r => (r.word, r.payload)
  | .fault _ => none
  | .refused _ => none

/-- The packet of a legal instruction. -/
def packetOf (i : Instr) (h : (encodePayload i).length = payloadLength (encodeWord i)) : Packet :=
  ⟨encodeWord i, encodePayload i, h⟩

/-- The state after `gfinit 3`: R = 3 and the tables of 95_test_vectors.md section 2.1. -/
def field3 : State :=
  { State.reset with
    field :=
      { r := 3
        exp := [1, 2, 4, 3, 6, 7, 5, 1]
        log := [none, some 7, some 1, some 3, some 2, some 6, some 4, some 5] }
    fvalid := true }

/-- The state after `encinit 3, 2, 3` (95_test_vectors.md P2). -/
def encoder3 : State :=
  { field3 with enc := { k := 3, s := 2, n := 7, gen := [3, 2, 1, 3, 1] }, evalid := true }

-- 40_field.md R42, R46: tables for r = 3.
theorem test_gfinit_builds_tables : fieldBuild PrimTable.standard 3 = field3.field := by decide
-- 40_field.md R46; 95_test_vectors.md section 2.3: r = 17 is refused.
theorem test_gfinit_17 : sent State.reset (packetOf (.gfinit 17) rfl) = some (0x1000000000000000, []) := by
  decide
-- 95_test_vectors.md P1: 10 mod 7 = 3.
theorem test_gfexp_reduces : sent field3 (packetOf (.gfexp 10) rfl) = some (0x3, []) := by decide
theorem test_gfexp_no_context : sent State.reset (packetOf (.gfexp 10) rfl) = some (0x4000000000000000, []) := by
  decide
-- 95_test_vectors.md P1: 6 * 7 = 4; zero guard.
theorem test_gfmul_product : sent field3 (packetOf (.gfmul 6 7) rfl) = some (0x4, []) := by decide
theorem test_gfmul_zero_guard : sent field3 (packetOf (.gfmul 0 5) rfl) = some (0x0, []) := by decide
-- 95_test_vectors.md P1: wrap entry, out of range.
theorem test_rdexp_wrap_entry : sent field3 (packetOf (.rdexp 7) rfl) = some (0x1, []) := by decide
theorem test_rdexp_range : sent field3 (packetOf (.rdexp 8) rfl) = some (0x3000000000000000, []) := by decide
-- 95_test_vectors.md P1: LOG[1] = 2^R - 1; LOG[0] refused.
theorem test_rdlog_one : sent field3 (packetOf (.rdlog 1) rfl) = some (0x7, []) := by decide
theorem test_rdlog_zero : sent field3 (packetOf (.rdlog 0) rfl) = some (0x3000000000000000, []) := by decide
-- 95_test_vectors.md section 3: GEN for r = 3, s = 2; section 4.4: N = 14 > 7 under STRICT_N.
theorem test_genBuild : genBuild field3.field 2 = .ok [3, 2, 1, 3, 1] := by decide
theorem test_encinit_strict : sent State.reset (packetOf (.encinit 10 2 3) rfl) = some (0x1000000000000000, []) := by
  decide
theorem test_encinit_not_strict :
    sent (State.resetWith { Config.standard with strictN := false }) (packetOf (.encinit 10 2 3) rfl) =
      some (0x0, []) := by decide
-- 95_test_vectors.md P2.
theorem test_encpar_parity :
    sent encoder3 (packetOf (.encpar 3 [1, 2, 3]) rfl) = some (0x4, [0, 2, 0, 1]) := by decide
-- 95_test_vectors.md section 5: the length is checked before the symbols.
theorem test_encpar_length_first :
    sent encoder3 (packetOf (.encpar 2 [1, 9]) rfl) = some (0x2000000000000000, []) := by decide
-- 95_test_vectors.md P2.
theorem test_rdgen_leading : sent encoder3 (packetOf (.rdgen 4) rfl) = some (0x1, []) := by decide
theorem test_rdgen_range : sent encoder3 (packetOf (.rdgen 5) rfl) = some (0x3000000000000000, []) := by decide
-- 30_encoding.md R40.
theorem test_illegal_word : sent State.reset ⟨0, [], rfl⟩ = some (0x5000000000000000, []) := by decide
-- 40_field.md R53, R45: the product of section 2.1's table by carry-less multiplication, PRIM[3] = 0xB.
theorem test_reference_product : reduceNat 0xB 3 (clmul 6 7) = 4 := by decide
-- 42_encoder.md R63: the source's vector for the all-0x01 message; 95_test_vectors.md section 4.1: Pack undefined.
theorem test_pack_vector :
    pack [884, 823, 710, 1013, 875, 544, 38, 359] 10 =
      some [0xDD, 0x33, 0x7B, 0x1B, 0xF5, 0xDA, 0xE2, 0x00, 0x99, 0x67] := by decide
theorem test_pack_undefined : pack [0, 2, 0, 1] 3 = none := by decide

/-! ### Witnesses: concrete states and operands that meet the hypotheses of each statement -/

theorem field3_valid : FieldValid field3.cfg field3.field where
  lower := by decide
  upper := by decide
  built := test_gfinit_builds_tables.symm

theorem field3_ready : field3.FieldReady where
  flag := rfl
  valid := field3_valid
  prim := primAt_standard_3

theorem encoder3_valid : EncoderValid encoder3.cfg encoder3.field encoder3.enc where
  kPos := by decide
  sPos := by decide
  total := by decide
  built := test_genBuild
  bound := by decide

theorem encoder3_ready : encoder3.EncoderReady where
  field := ⟨rfl, field3_valid, primAt_standard_3⟩
  flag := rfl
  valid := encoder3_valid

theorem encoder3_inv : encoder3.Inv where
  flags := fun _ => rfl
  field := fun _ => field3_valid
  enc := fun _ => encoder3_valid
  widths := ⟨by decide, by decide, by decide, by decide⟩

/-- `encoder3` with one packet waiting. -/
def waiting (p : Packet) : State := { encoder3 with inbox := [.command p] }

theorem waiting_inv (p : Packet) : (waiting p).Inv where
  flags := encoder3_inv.flags
  field := encoder3_inv.field
  enc := encoder3_inv.enc
  widths := ⟨encoder3_inv.widths.rWidth, encoder3_inv.widths.kWidth, encoder3_inv.widths.sWidth, encoder3_inv.widths.nWidth⟩

theorem witness_DecodeReadsEncodedInstruction : (Instr.encpar 2 [1, 2]).wf = true := by decide

theorem witness_DecodedInstructionEncodesBack :
    ∃ (p : Packet) (i : Instr), decode p.cw p.payload = .ok i :=
  ⟨⟨0x5000000000000002, [1, 2], rfl⟩, .encpar 2 [1, 2], by decide⟩

theorem witness_OpcodeMapSelectsDecodedCommand :
    ∃ (cw : CommandWord) (m : List Elem) (i : Instr), decode cw m = .ok i ∧ opRow i ∈ opRows ∧ (opRow i).selects cw = true :=
  ⟨0x40000004000B0002, [], .encinit 11 2 4, by decide⟩

theorem witness_IllegalWordsAreRefused :
    ∃ (s : State) (p : Packet) (rest : List HostMove), s.inbox = .command p :: rest ∧ IllegalWord p.cw :=
  ⟨waiting ⟨0, [], rfl⟩, ⟨0, [], rfl⟩, [], rfl, .inl (.inl (by decide))⟩

theorem witness_StepRunsDecodedInstruction :
    ∃ (s : State) (p : Packet) (rest : List HostMove) (i : Instr),
      s.inbox = .command p :: rest ∧ decode p.cw p.payload = .ok i :=
  ⟨waiting (packetOf (.gfexp 3) rfl), _, [], .gfexp 3, rfl, by decide⟩

theorem witness_IdleBlockKeepsItsState : State.reset.inbox = [] := rfl

theorem witness_ResetMoveClearsBothFlags :
    ({ encoder3 with inbox := [.reset] } : State).inbox = .reset :: [] ∧ readOnly (.gfexp 3) = true := ⟨rfl, rfl⟩

theorem witness_EachCommandGetsOneResponse :
    ∃ (s t : State) (p : Packet) (rest : List HostMove), s.inbox = .command p :: rest ∧ step s = .next t :=
  ⟨waiting ⟨0, [], rfl⟩, _, ⟨0, [], rfl⟩, [], rfl, rfl⟩

theorem witness_StepKeepsInvariant : ∃ s t : State, s.Inv ∧ step s = .next t :=
  ⟨waiting (packetOf (.gfinit 3) rfl), _, waiting_inv _, rfl⟩

theorem witness_StepNeverFaults : PrimAdmissible encoder3.cfg.prim ∧ encoder3.Inv :=
  ⟨primAdmissible_standard, encoder3_inv⟩

theorem witness_EveryWaitingCommandIsAnswered :
    ∃ s : State, PrimAdmissible s.cfg.prim ∧ s.Inv ∧ s.inbox.length = 1 :=
  ⟨waiting (packetOf (.rdgen 4) rfl), primAdmissible_standard, waiting_inv _, rfl⟩

theorem witness_ReadOnlyCommandsWriteNothing :
    ∃ (i : Instr) (s t : State), readOnly i = true ∧ exec i s = .next t := ⟨.gfexp 10, field3, _, rfl, rfl⟩

theorem witness_FailedCommandsWriteNothing :
    ∃ (i : Instr) (s t : State) (r : Response), exec i s = .next t ∧ t.outbox = s.outbox ++ [r] ∧ r.status ≠ .ok :=
  ⟨.gfinit 17, field3, _, failResponse .configError, rfl, rfl, by decide⟩

theorem witness_ContextsChangeOnlyByConstruction : ∃ s t : State, step s = .next t ∧ t.field ≠ s.field :=
  ⟨waiting (packetOf (.gfinit 2) rfl), _, rfl, by decide⟩

theorem witness_ReadOnlyCommandsCommute :
    ∃ (i j : Instr) (s t u : State),
      readOnly i = true ∧ readOnly j = true ∧ exec i s = .next t ∧ exec j s = .next u :=
  ⟨.gfexp 10, .rdexp 8, field3, _, _, rfl, rfl, rfl, rfl⟩

theorem witness_AnswersIgnoreLogOfZero :
    ∃ (i : Instr) (s t : State), s.field.r ≤ rMax ∧ exec i s = .next t := ⟨.gfmul 0 5, field3, _, by decide, rfl⟩

theorem witness_ChecksAreMadeInOrder :
    IllegalWord 0x9000000000000000 ∧ (readsField (.gfmul 0xFFFF 1) = true ∧ State.reset.fvalid = false) ∧
      (readsEncoder (.rdgen 0) = true ∧ field3.evalid = false) ∧
      ¬(2 ≤ (1 : BitVec 5).toNat ∧ (1 : BitVec 5).toNat ≤ 16) ∧ ¬(2 ≤ (17 : BitVec 5).toNat ∧ (17 : BitVec 5).toNat ≤ 16) ∧
      (encoder3.evalid = true ∧ (2 : BitVec 32).toNat ≠ encoder3.enc.k) ∧
      ((3 : BitVec 32).toNat = encoder3.enc.k ∧ ∃ x ∈ ([1, 2, 8] : List Elem), 2 ^ encoder3.field.r ≤ x.toNat) ∧
      (field3.fvalid = true ∧ 2 ^ field3.field.r ≤ (8 : Elem).toNat) ∧
      (field3.fvalid = true ∧ 2 ^ field3.field.r ≤ (8 : BitVec 32).toNat) ∧ 2 * encoder3.enc.s < (5 : BitVec 32).toNat ∧
      (State.reset.cfg.strictN = true ∧
        2 ^ (4 : BitVec 5).toNat - 1 < (12 : BitVec 16).toNat + 2 * (2 : BitVec 16).toNat) := by
  refine ⟨.inl (.inr ?_), ?_, ?_, ?_, ?_, ?_, ⟨rfl, 8, ?_, ?_⟩, ?_, ?_, ?_, ?_⟩ <;> decide

theorem witness_GfinitEndsEncoderContext :
    (∃ (r : BitVec 5) (s t : State), 2 ≤ r.toNat ∧ r.toNat ≤ 16 ∧ exec (.gfinit r) s = .next t) ∧
      readsEncoder (.encpar 0 []) = true ∧ State.reset.evalid = false ∧
      ∃ (k sc : BitVec 16) (r : BitVec 5) (s t : State), exec (.encinit k sc r) s = .next t ∧
        t.outbox = s.outbox ++ [okResponse 0 []] := by
  refine ⟨⟨2, encoder3, _, by decide, by decide, rfl⟩, rfl, rfl, 1, 1, 2, State.reset, ?_, ?_, ?_⟩
  · exact (State.reset.installEncoder (fieldBuild PrimTable.standard 2) { k := 1, s := 1, n := 3, gen := [1, 1, 1] }).respond
      (okResponse 0 [])
  · rfl
  · rfl

theorem witness_AlphaStepIsExact :
    (0x1100B : Poly).toNat.testBit 16 = true ∧ (0x1100B : Poly).toNat < 2 ^ (16 + 1) ∧ (0x8000 : Elem).toNat < 2 ^ 16 := by
  decide

theorem witness_field_orders :
    (rMin ≤ 2 ∧ 2 ≤ rMax ∧ PrimAt PrimTable.standard 2) ∧ rMin ≤ 16 ∧ 16 ≤ rMax ∧ PrimAt PrimTable.standard 16 :=
  ⟨⟨by decide, by decide, primAt_standard_2⟩, by decide, by decide, primAt_standard_16⟩

theorem witness_FieldBuildFillsBothTables :
    PrimAt PrimTable.standard 2 ∧ (2 : Nat) ≤ (2 : Elem).toNat ∧ (2 : Elem).toNat ≤ 2 ^ 2 - 1 ∧ (3 : Elem).toNat ≤ 2 ^ 2 - 1 :=
  ⟨primAt_standard_2, by decide, by decide, by decide⟩

theorem witness_TablesAreInverse :
    PrimAt PrimTable.standard 3 ∧ 1 ≤ (1 : Elem).toNat ∧ (7 : Elem).toNat ≤ 2 ^ 3 - 1 :=
  ⟨primAt_standard_3, by decide, by decide⟩

theorem witness_FieldEngineProperties :
    PrimAt PrimTable.standard 3 ∧ (7 : Elem) ≠ 0 ∧ (7 : Elem).toNat < 2 ^ 3 :=
  ⟨primAt_standard_3, by decide, by decide⟩

theorem witness_NonzeroElementsFormGroup :
    PrimAt field3.cfg.prim 3 ∧ mul (fieldBuild field3.cfg.prim 3) 6 7 = .ok 4 ∧
      mul (fieldBuild field3.cfg.prim 3) 7 5 = .ok 6 :=
  ⟨primAt_standard_3, by decide, by decide⟩

theorem witness_MulDistributesOverXor :
    PrimAt PrimTable.standard 4 ∧ (15 : Elem).toNat < 2 ^ 4 ∧ (9 : Elem).toNat < 2 ^ 4 :=
  ⟨primAt_standard_4, by decide, by decide⟩

theorem witness_MulIsPolynomialMultiplication :
    PrimAt PrimTable.standard 16 ∧ (0xFFFF : Elem).toNat < 2 ^ 16 := ⟨primAt_standard_16, by decide⟩

theorem witness_GfinitBuildsFieldContext :
    (2 ≤ (2 : BitVec 5).toNat ∧ (2 : BitVec 5).toNat ≤ 16) ∧ (2 ≤ (16 : BitVec 5).toNat ∧ (16 : BitVec 5).toNat ≤ 16) ∧
      ¬(2 ≤ (17 : BitVec 5).toNat ∧ (17 : BitVec 5).toNat ≤ 16) := by decide

theorem witness_GfexpReadsReducedIndex :
    State.reset.fvalid = false ∧ field3.fvalid = true ∧
      field3.field.exp[(0xFFFFFFFF : BitVec 32).toNat % (2 ^ field3.field.r - 1)]? = some 3 := by decide

theorem witness_GfexpAnswersPowerOfAlpha : field3.FieldReady := field3_ready

theorem witness_GfmulFollowsTableRule :
    State.reset.fvalid = false ∧ field3.fvalid = true ∧ 2 ^ field3.field.r ≤ (8 : Elem).toNat ∧
      (7 : Elem).toNat < 2 ^ field3.field.r ∧ (6 : Elem).toNat < 2 ^ field3.field.r ∧ (6 : Elem) ≠ 0 ∧ (7 : Elem) ≠ 0 ∧
      field3.field.log[(6 : Elem).toNat]? = some (some 4) ∧ field3.field.log[(7 : Elem).toNat]? = some (some 5) ∧
      field3.field.exp[((4 : LogValue).toNat + (5 : LogValue).toNat) % (2 ^ field3.field.r - 1)]? = some 4 := by decide

theorem witness_GfmulAnswersPolynomialProduct :
    field3.FieldReady ∧ (7 : Elem).toNat < 2 ^ field3.field.r := ⟨field3_ready, by decide⟩

theorem witness_RdexpReadsRawTable :
    State.reset.fvalid = false ∧ field3.fvalid = true ∧ 2 ^ field3.field.r ≤ (8 : BitVec 32).toNat ∧
      (7 : BitVec 32).toNat < 2 ^ field3.field.r ∧ field3.field.exp[(7 : BitVec 32).toNat]? = some 1 := by decide

theorem witness_RdexpAnswersPowerOfAlpha :
    field3.FieldReady ∧ (7 : BitVec 32).toNat < 2 ^ field3.field.r ∧ (7 : BitVec 32).toNat = 2 ^ field3.field.r - 1 :=
  ⟨field3_ready, by decide, by decide⟩

theorem witness_RdlogReadsTable :
    State.reset.field.r ≤ rMax ∧ State.reset.fvalid = false ∧ field3.field.r ≤ rMax ∧ field3.fvalid = true ∧
      2 ^ field3.field.r ≤ (8 : BitVec 32).toNat ∧ (1 : BitVec 32) ≠ 0 ∧ (1 : BitVec 32).toNat < 2 ^ field3.field.r ∧
      field3.field.log[(1 : BitVec 32).toNat]? = some (some 7) := by decide

theorem witness_RdlogAnswersDiscreteLogarithm :
    field3.FieldReady ∧ (1 : BitVec 32) ≠ 0 ∧ (7 : BitVec 32).toNat < 2 ^ field3.field.r :=
  ⟨field3_ready, by decide, by decide⟩

theorem witness_GenBuildIsProductOfRoots : PrimAt field3.cfg.prim 3 ∧ genBuild (fieldBuild field3.cfg.prim 3) 2 = .ok [3, 2, 1, 3, 1] :=
  ⟨primAt_standard_3, by decide⟩

theorem witness_GeneratorIsMonicWithKnownConstant :
    PrimAt field3.cfg.prim 3 ∧ 1 ≤ 1 ∧ genBuild (fieldBuild field3.cfg.prim 3) 1 = .ok [3, 6, 1] :=
  ⟨primAt_standard_3, le_rfl, by decide⟩

theorem witness_GeneratorVanishesAtItsRoots :
    PrimAt field3.cfg.prim 3 ∧ genBuild (fieldBuild field3.cfg.prim 3) 2 = .ok [3, 2, 1, 3, 1] ∧ 1 ≤ 4 ∧ 4 ≤ 2 * 2 :=
  ⟨primAt_standard_3, by decide, by decide, by decide⟩

theorem witness_RootsAreDistinctWithinBound :
    PrimAt PrimTable.standard 3 ∧ 2 * 3 ≤ 2 ^ 3 - 2 ∧ ¬2 * 4 ≤ 2 ^ 3 - 2 := ⟨primAt_standard_3, by decide, by decide⟩

theorem witness_RdgenReadsTable :
    State.reset.evalid = false ∧ encoder3.evalid = true ∧ 2 * encoder3.enc.s < (5 : BitVec 32).toNat ∧
      (4 : BitVec 32).toNat ≤ 2 * encoder3.enc.s ∧ encoder3.enc.gen[(4 : BitVec 32).toNat]? = some 1 := by decide

theorem witness_RdgenAnswersCoefficient :
    encoder3.EncoderReady ∧ (4 : BitVec 32).toNat ≤ 2 * encoder3.enc.s := ⟨encoder3_ready, by decide⟩

theorem witness_EncinitBuildsBothContexts :
    ((2 ≤ (2 : BitVec 5).toNat ∧ (2 : BitVec 5).toNat ≤ 16) ∧ (1 : BitVec 16).toNat ≠ 0 ∧ (1 : BitVec 16).toNat ≠ 0 ∧
      (State.reset.cfg.strictN = true → (1 : BitVec 16).toNat + 2 * (1 : BitVec 16).toNat ≤ 2 ^ (2 : BitVec 5).toNat - 1)) ∧
      PrimAt State.reset.cfg.prim (2 : BitVec 5).toNat ∧
      ¬(State.reset.cfg.strictN = true →
        (2 : BitVec 16).toNat + 2 * (1 : BitVec 16).toNat ≤ 2 ^ (2 : BitVec 5).toNat - 1) :=
  ⟨by decide, primAt_standard_2, by decide⟩

theorem witness_BufferHoldsShiftedMessage :
    encoder3.enc.n = encoder3.enc.k + 2 * encoder3.enc.s ∧ ([1, 2, 3] : List Elem).length = encoder3.enc.k := by decide

theorem witness_EncparChecksThenDivides :
    State.reset.evalid = false ∧ encoder3.evalid = true ∧ (2 : BitVec 32).toNat ≠ encoder3.enc.k ∧
      (3 : BitVec 32).toNat = encoder3.enc.k ∧ (∃ x ∈ ([1, 2, 8] : List Elem), 2 ^ encoder3.field.r ≤ x.toNat) ∧
      (∀ x ∈ ([1, 2, 7] : List Elem), x.toNat < 2 ^ encoder3.field.r) ∧
      parityDivide encoder3.field encoder3.enc [1, 2, 3] = .ok [0, 2, 0, 1] :=
  ⟨rfl, rfl, by decide, rfl, ⟨8, by decide, by decide⟩, messageOk_iff.mp (by decide), by decide⟩

theorem witness_EncparAnswersRemainder :
    encoder3.EncoderReady ∧ (3 : BitVec 32).toNat = encoder3.enc.k ∧ ([1, 2, 3] : List Elem).length = encoder3.enc.k ∧
      ∀ x ∈ ([1, 2, 3] : List Elem), x.toNat < 2 ^ encoder3.field.r :=
  ⟨encoder3_ready, by decide, by decide, messageOk_iff.mp (by decide)⟩

theorem witness_parity_contexts :
    FieldValid encoder3.cfg encoder3.field ∧ PrimAt encoder3.cfg.prim encoder3.field.r ∧
      EncoderValid encoder3.cfg encoder3.field encoder3.enc := ⟨field3_valid, primAt_standard_3, encoder3_valid⟩

theorem witness_CodewordVanishesAtTheRoots :
    EncoderValid encoder3.cfg encoder3.field encoder3.enc ∧ ([1, 2, 3] : List Elem).length = encoder3.enc.k ∧
      (∀ x ∈ ([1, 2, 3] : List Elem), x.toNat < 2 ^ encoder3.field.r) ∧
      parityDivide encoder3.field encoder3.enc [1, 2, 3] = .ok [0, 2, 0, 1] ∧ 1 ≤ 4 ∧ 4 ≤ 2 * encoder3.enc.s :=
  ⟨encoder3_valid, by decide, messageOk_iff.mp (by decide), by decide, by decide, by decide⟩

theorem witness_ParityIsLinear :
    EncoderValid encoder3.cfg encoder3.field encoder3.enc ∧ ([1, 0, 0] : List Elem).length = encoder3.enc.k ∧
      ([0, 0, 1] : List Elem).length = encoder3.enc.k ∧ (7 : Elem).toNat < 2 ^ encoder3.field.r ∧
      parityDivide encoder3.field encoder3.enc [1, 0, 0] = .ok [3, 2, 1, 3] ∧
      parityDivide encoder3.field encoder3.enc [0, 0, 1] = .ok [7, 6, 1, 6] :=
  ⟨encoder3_valid, by decide, by decide, by decide, by decide, by decide⟩

theorem witness_ParityOfZeroAndUnitMessages : EncoderValid encoder3.cfg encoder3.field encoder3.enc := encoder3_valid

-- 95_test_vectors.md section 3 (6 Mul calls) and section 4.1 (8 Mul calls, one step skipped).
theorem witness_OperationCountsAreExact :
    genBuild field3.field 2 = .ok [3, 2, 1, 3, 1] ∧ encoder3.enc.n = encoder3.enc.k + 2 * encoder3.enc.s ∧
      parityDivideC encoder3.field encoder3.enc [1, 2, 3] = .ok ([0, 2, 0, 1], { mulCalls := 8, active := 2 }) ∧
      EncoderValid encoder3.cfg encoder3.field encoder3.enc :=
  ⟨by decide, by decide, by decide, encoder3_valid⟩

theorem witness_PackKeepsTheBitString : 1 ≤ 10 ∧ 10 ≤ 16 ∧ ([884, 823, 710, 1013] : List Elem).length * 10 % 8 = 0 ∧
    ([0, 2, 0, 1] : List Elem).length * 3 % 8 ≠ 0 := by decide

end Sys2Proof.Tests
end

/-! # Proofs about the state (10_state.md)

The waiting command of a step, the invariant of R23, read-only commands, and the tables of FieldBuild over a primitive
polynomial. -/

namespace Sys2Proof.Machine

/-! ### A step on a waiting packet (R11) -/

section WaitingPacket

variable {s : State} {p : Packet}

theorem step_of_command {rest : List HostMove} (waits : s.inbox = .command p :: rest) :
    step s = runPacket p { s with inbox := rest } := by
  rw [step, waits]

theorem runPacket_of_decode {i : Instr} (decodes : decode p.cw p.payload = .ok i) : runPacket p s = exec i s := by
  rw [runPacket, decodes]

end WaitingPacket

/-- Settles O7: `step` hands the packet to `runPacket`, which hands a legal command to `exec`. -/
theorem stepRunsDecodedInstruction : Obligations.StepRunsDecodedInstruction := by
  intro s p rest i waits decodes
  rw [step_of_command waits, runPacket_of_decode decodes]

/-! ### The invariant of R23 -/

section Invariant

variable {s t : State}

/-- The invariant speaks of the parameters, the contexts and the flags alone. -/
theorem State.Inv.of_same_block (inv : s.Inv) (cfg : t.cfg = s.cfg) (field : t.field = s.field)
    (fvalid : t.fvalid = s.fvalid) (enc : t.enc = s.enc) (evalid : t.evalid = s.evalid) : t.Inv where
  flags := by rw [fvalid, evalid]; exact inv.flags
  field := by rw [fvalid, cfg, field]; exact inv.field
  enc := by rw [evalid, cfg, field, enc]; exact inv.enc
  widths := by
    obtain ⟨rWidth, kWidth, sWidth, nWidth⟩ := inv.widths
    constructor <;> simpa only [field, enc]

theorem State.Inv.answered (inv : s.Inv) (r : Response) : (answered s r).Inv :=
  inv.of_same_block rfl rfl rfl rfl rfl

theorem State.Inv.withInbox (inv : s.Inv) (moves : List HostMove) : ({ s with inbox := moves } : State).Inv :=
  inv.of_same_block rfl rfl rfl rfl rfl

/-- With both flags 0 only the widths remain of the invariant. -/
theorem inv_of_flags_clear (fvalid : s.fvalid = false) (evalid : s.evalid = false) (widths : WidthsOk s) : s.Inv where
  flags := by simp [evalid]
  field := by simp [fvalid]
  enc := by simp [evalid]
  widths := widths

theorem assertReset_inv (s : State) : s.assertReset.Inv :=
  inv_of_flags_clear rfl rfl (assertReset_widths s)

theorem resetWith_inv (cfg : Config) : (State.resetWith cfg).Inv :=
  inv_of_flags_clear rfl rfl (by constructor <;> simp [State.resetWith])

theorem fieldBuild_valid (cfg : Config) {r : BitVec 5} (order : orderOk r = true) :
    FieldValid cfg (fieldBuild cfg.prim r.toNat) := by
  obtain ⟨lower, upper⟩ := orderOk_iff.mp order
  exact
    { lower := (fieldBuild_r cfg.prim r.toNat).symm ▸ lower
      upper := (fieldBuild_r cfg.prim r.toNat).symm ▸ upper
      built := by rw [fieldBuild_r] }

/-- What ENCINIT writes on an accepted configuration is an encoder configuration over the field it builds (R58). -/
theorem builtEncoder_valid {cfg : Config} {k sc : BitVec 16} {r : BitVec 5} {gen : List Elem}
    (accepted : configOk cfg k sc r = true) (built : genBuild (fieldBuild cfg.prim r.toNat) sc.toNat = .ok gen) :
    EncoderValid cfg (fieldBuild cfg.prim r.toNat)
      { k := k.toNat, s := sc.toNat, n := k.toNat + 2 * sc.toNat, gen := gen } := by
  obtain ⟨-, hk, hs, bound⟩ := configOk_iff.mp accepted
  exact ⟨Nat.pos_of_ne_zero hk, Nat.pos_of_ne_zero hs, rfl, built, by simpa using bound⟩

theorem installField_inv (inv : s.Inv) {r : BitVec 5} (order : orderOk r = true) :
    (s.installField (fieldBuild s.cfg.prim r.toNat)).Inv where
  flags := by simp
  field := fun _ => fieldBuild_valid s.cfg order
  enc := by simp
  widths := ⟨by simpa using r.isLt, inv.widths.kWidth, inv.widths.sWidth, inv.widths.nWidth⟩

theorem installEncoder_inv (s : State) {k sc : BitVec 16} {r : BitVec 5} {gen : List Elem}
    (accepted : configOk s.cfg k sc r = true) (built : genBuild (fieldBuild s.cfg.prim r.toNat) sc.toNat = .ok gen) :
    (s.installEncoder (fieldBuild s.cfg.prim r.toNat)
      { k := k.toNat, s := sc.toNat, n := k.toNat + 2 * sc.toNat, gen := gen }).Inv where
  flags := by simp
  field := fun _ => by
    have order : orderOk r = true := orderOk_iff.mpr (configOk_iff.mp accepted).1
    exact fieldBuild_valid s.cfg order
  enc := fun _ => builtEncoder_valid accepted built
  widths :=
    { rWidth := by simpa using r.isLt
      kWidth := k.isLt
      sWidth := sc.isLt
      nWidth := by
        have hk := k.isLt
        have hs := sc.isLt
        simp only [installEncoder_enc]
        omega }

/-- However a command ends, the invariant holds again. -/
theorem Ends.inv {i : Instr} (ends : Ends i s t) (inv : s.Inv) : t.Inv := by
  cases ends with
  | answers r _ => exact inv.answered r
  | builtField r _ order => exact (installField_inv inv order).answered _
  | builtEncoder k sc r gen _ accepted built => exact (installEncoder_inv s accepted built).answered _

theorem step_keeps_inv (inv : s.Inv) (h : step s = .next t) : t.Inv := by
  obtain ⟨-, rfl⟩ | ⟨rest, -, rfl⟩ | ⟨p, rest, e, -, -, rfl⟩ | ⟨p, rest, i, -, -, runs⟩ := step_cases h
  · exact inv
  · exact assertReset_inv _
  · exact (inv.withInbox rest).answered _
  · exact (exec_ends runs).inv (inv.withInbox rest)

end Invariant

/-- Settles O12: a step idles, resets both flags, answers, or builds contexts that its checks accepted. -/
theorem stepKeepsInvariant : Obligations.StepKeepsInvariant := fun _ _ inv h => step_keeps_inv inv h

/-- Settles O11: both flags are 0, so that only the widths of the invariant are left, and 0 fits each width. -/
theorem resetStateMeetsInvariant : Obligations.ResetStateMeetsInvariant :=
  ⟨fun cfg => ⟨rfl, rfl, rfl, rfl, rfl, resetWith_inv cfg⟩, rfl⟩

/-! ### Read-only commands (R22, R28) -/

/-- A command that is not GFINIT or ENCINIT can only answer. -/
theorem Ends.answers_of_readOnly {i : Instr} {s t : State} (ends : Ends i s t) (reads : readOnly i = true) :
    ∃ r : Response, r.wf ∧ t = answered s r := by
  cases ends with
  | answers r proper => exact ⟨r, proper, rfl⟩
  | builtField r isGfinit _ =>
    subst isGfinit
    exact absurd reads Bool.false_ne_true
  | builtEncoder k sc r gen isEncinit _ _ =>
    subst isEncinit
    exact absurd reads Bool.false_ne_true

/-- Settles O15: of the ways a command ends, a read-only one has only the answer, which writes nothing. -/
theorem readOnlyCommandsWriteNothing : Obligations.ReadOnlyCommandsWriteNothing := by
  intro i s t reads runs
  obtain ⟨r, -, ht⟩ := (exec_ends runs).answers_of_readOnly reads
  exact ⟨r, ht⟩

/-! ### Degree 2 (R12) -/

/-- The doubling sequence of 0x5 is 1, 2, 1, 2: it returns too early. -/
theorem not_primitive_five : ¬ Primitive 0x5 2 := fun h => absurd h.period (by decide)

/-- Bits 2 and 0 set and none above 2 leave 0x5 and 0x7. -/
theorem Primitive.eq_five_or_seven {poly : Nat} (h : Primitive poly 2) : poly = 0x5 ∨ poly = 0x7 := by
  have shapes : ∀ p < 2 ^ (2 + 1), p.testBit 2 = true → p.testBit 0 = true → p = 0x5 ∨ p = 0x7 := by decide
  exact shapes poly h.degree h.top h.bottom

/-- Settles O23: of the two polynomials of the right shape 0x5 returns too early, and 0x7 is the entry of the default
table. -/
theorem onlyPrimitiveOfDegreeTwo : Obligations.OnlyPrimitiveOfDegreeTwo := by
  intro poly
  constructor
  · intro h
    obtain rfl | rfl := h.eq_five_or_seven
    · exact absurd h not_primitive_five
    · rfl
  · rintro rfl
    exact primAt_standard_2

/-! ### The powers of alpha list the non-zero symbols (R12) -/

section Powers

variable {poly r : Nat}

theorem alphaPow_ne_zero (bottom : poly.testBit 0 = true) (i : Nat) : alphaPow poly r i ≠ 0 := by
  induction i with
  | zero => exact Nat.one_ne_zero
  | succ i ih =>
    intro h
    have stepZero : stepNat poly r 0 = 0 := by simp [stepNat]
    exact ih (stepNat_injective bottom (h.trans stepZero.symm))

/-- The powers 1 to 2^r - 1 are distinct too: step back and use the powers 0 to 2^r - 2. -/
theorem Primitive.distinct_from_one (h : Primitive poly r) {i j : Nat} (hi : 1 ≤ i) (hi' : i ≤ 2 ^ r - 1)
    (hj : 1 ≤ j) (hj' : j ≤ 2 ^ r - 1) (eq : alphaPow poly r i = alphaPow poly r j) : i = j := by
  obtain ⟨i, rfl⟩ := Nat.exists_eq_add_of_le' hi
  obtain ⟨j, rfl⟩ := Nat.exists_eq_add_of_le' hj
  rw [h.distinct i hi' j hj' (stepNat_injective h.bottom eq)]

/-- The powers 0 to 2^r - 2 are distinct members of a list of the same length. -/
theorem Primitive.powers_perm (h : Primitive poly r) (hr : 1 ≤ r) :
    ((List.range (2 ^ r - 1)).map (alphaPow poly r)).Perm (upTo 1 (2 ^ r - 1)) := by
  have nodup : ((List.range (2 ^ r - 1)).map (alphaPow poly r)).Nodup :=
    List.nodup_range.map_on fun i hi j hj => h.distinct i (List.mem_range.mp hi) j (List.mem_range.mp hj)
  have subset : (List.range (2 ^ r - 1)).map (alphaPow poly r) ⊆ upTo 1 (2 ^ r - 1) := by
    intro x hx
    obtain ⟨i, -, rfl⟩ := List.mem_map.mp hx
    have pos := Nat.pos_of_ne_zero (alphaPow_ne_zero (r := r) h.bottom i)
    have lt := alphaPow_lt hr h.top h.degree i
    exact mem_upTo.mpr ⟨pos, by omega⟩
  exact (List.subperm_of_subset nodup subset).perm_of_length_le (by simp [upTo])

/-- Every non-zero symbol is a power with an exponent from 1 to 2^r - 1. -/
theorem Primitive.exists_power (h : Primitive poly r) (hr : 1 ≤ r) {x : Nat} (pos : 1 ≤ x) (le : x ≤ 2 ^ r - 1) :
    ∃ i, 1 ≤ i ∧ i ≤ 2 ^ r - 1 ∧ alphaPow poly r i = x := by
  obtain ⟨i, hi, rfl⟩ := List.mem_map.mp ((h.powers_perm hr).mem_iff.mpr (mem_upTo.mpr ⟨pos, le⟩))
  have lt : i < 2 ^ r - 1 := List.mem_range.mp hi
  rcases Nat.eq_zero_or_pos i with rfl | hi
  · exact ⟨2 ^ r - 1, by omega, le_rfl, h.period⟩
  · exact ⟨i, hi, lt.le, rfl⟩

end Powers

/-! ### FieldBuild over a primitive polynomial (R42) -/

section Tables

variable {poly : Poly} {r : Nat}

/-- The 17-bit step loses nothing before the XOR, and its result fits 16 bits (D6). -/
theorem alphaStep_toNat (lower : 1 ≤ r) (upper : r ≤ 16) (top : poly.toNat.testBit r = true)
    (degree : poly.toNat < 2 ^ (r + 1)) {p : Elem} (hp : p.toNat < 2 ^ r) :
    (alphaStep poly r p).toNat = stepNat poly.toNat r p.toNat := by
  have shifted : (p.setWidth 17 <<< 1).toNat = p.toNat <<< 1 := by
    rw [BitVec.toNat_shiftLeft, BitVec.toNat_setWidth, Nat.shiftLeft_eq, Nat.shiftLeft_eq]
    omega
  have fits : stepNat poly.toNat r p.toNat < 2 ^ 16 :=
    (stepNat_lt lower top degree hp).trans_le (Nat.pow_le_pow_right (by decide) upper)
  have exact17 : alphaStep poly r p = BitVec.ofNat 16 (stepNat poly.toNat r p.toNat) := by
    apply BitVec.eq_of_toNat_eq
    unfold alphaStep stepNat
    rw [BitVec.toNat_setWidth, BitVec.toNat_ofNat, BitVec.getLsbD]
    split
    · rw [BitVec.toNat_xor, shifted]
    · rw [shifted]
  rw [exact17, BitVec.toNat_ofNat, Nat.mod_eq_of_lt fits]

/-- The symbols that the loop of FieldBuild produces are the powers of alpha. -/
theorem alphaIter_toNat (lower : 1 ≤ r) (upper : r ≤ 16) (top : poly.toNat.testBit r = true)
    (degree : poly.toNat < 2 ^ (r + 1)) (i : Nat) : (alphaIter poly r i).toNat = alphaPow poly.toNat r i := by
  induction i with
  | zero => rfl
  | succ i ih =>
    have small : (alphaIter poly r i).toNat < 2 ^ r := by
      rw [ih]
      exact alphaPow_lt lower top degree i
    rw [alphaIter, alphaStep_toNat lower upper top degree small, ih, alphaPow]

/-- LOG keeps the index of the last iteration that produced a symbol. -/
theorem lastProduced_eq {i n : Nat} (pos : 1 ≤ i) (le : i ≤ n)
    (last : ∀ j, i < j → j ≤ n → (alphaIter poly r j).toNat ≠ (alphaIter poly r i).toNat) :
    lastProduced poly r (alphaIter poly r i).toNat n = some (BitVec.ofNat 16 i) := by
  induction n with
  | zero => omega
  | succ n ih =>
    rw [lastProduced]
    rcases Nat.eq_or_lt_of_le le with rfl | lt
    · exact if_pos rfl
    · rw [if_neg (last (n + 1) lt le_rfl)]
      exact ih (Nat.le_of_lt_succ lt) fun j hj hj' => last j hj (Nat.le_succ_of_le hj')

end Tables

section BuiltTables

variable {prim : PrimTable} {r : Nat}

theorem PrimAt.alphaIter_toNat (h : PrimAt prim r) (lower : rMin ≤ r) (upper : r ≤ rMax) (i : Nat) :
    (alphaIter (primEntry prim r) r i).toNat = alphaPow (primEntry prim r).toNat r i :=
  Machine.alphaIter_toNat (Nat.one_le_of_lt lower) upper h.top h.degree i

/-- LOG[EXP[i]] = i: the powers 1 to 2^r - 1 are distinct, so each symbol is produced once. -/
theorem PrimAt.log_alphaIter (h : PrimAt prim r) (lower : rMin ≤ r) (upper : r ≤ rMax) {i : Nat} (pos : 1 ≤ i)
    (le : i ≤ 2 ^ r - 1) :
    (fieldBuild prim r).log[(alphaIter (primEntry prim r) r i).toNat]? = some (some (BitVec.ofNat 16 i)) := by
  obtain ⟨-, -, -, -, log⟩ := fieldBuild_spec prim r
  have small : (alphaIter (primEntry prim r) r i).toNat < 2 ^ r := by
    rw [h.alphaIter_toNat lower upper]
    exact alphaPow_lt (Nat.one_le_of_lt lower) h.top h.degree i
  rw [log _ small, lastProduced_eq pos le]
  intro j hj hj' eq
  rw [h.alphaIter_toNat lower upper, h.alphaIter_toNat lower upper] at eq
  exact hj.ne' (h.distinct_from_one (by omega) hj' pos le eq)

/-- EXP, read as numbers without its last entry, is the list of the powers 0 to 2^r - 2. -/
theorem PrimAt.exp_take_toNat (h : PrimAt prim r) (lower : rMin ≤ r) (upper : r ≤ rMax) :
    ((fieldBuild prim r).exp.take (2 ^ r - 1)).map BitVec.toNat =
      (List.range (2 ^ r - 1)).map (alphaPow (primEntry prim r).toNat r) := by
  obtain ⟨-, -, -, exp, -⟩ := fieldBuild_spec prim r
  apply List.ext_getElem?
  intro i
  rw [List.getElem?_map, List.getElem?_map, List.getElem?_take]
  split
  · next hi => simp [exp i (by omega), List.getElem?_range hi, h.alphaIter_toNat lower upper]
  · next hi => simp [hi]

end BuiltTables

/-- Settles O25: every non-zero symbol is alpha^i for one i from 1 to 2^r - 1, EXP holds it at i, and LOG holds i
at it. -/
theorem tablesAreInverse : Obligations.TablesAreInverse := by
  intro prim r lower upper h
  obtain ⟨-, -, -, exp, -⟩ := fieldBuild_spec prim r
  have order : 1 ≤ r := Nat.one_le_of_lt lower
  have size : 2 ^ r ≤ 2 ^ 16 := Nat.pow_le_pow_right (by decide) upper
  refine ⟨fun x pos le => ?_, fun i pos le => ?_, ?_⟩
  · obtain ⟨i, hi, hi', power⟩ := Primitive.exists_power h order pos le
    obtain rfl : alphaIter (primEntry prim r) r i = x :=
      BitVec.eq_of_toNat_eq ((h.alphaIter_toNat lower upper i).trans power)
    refine ⟨BitVec.ofNat 16 i, h.log_alphaIter lower upper hi hi', ?_⟩
    rw [BitVec.toNat_ofNat, Nat.mod_eq_of_lt (by omega)]
    exact exp i (by omega)
  · exact ⟨alphaIter (primEntry prim r) r i, exp i (by omega), h.log_alphaIter lower upper pos le⟩
  · show List.Perm _ _
    rw [h.exp_take_toNat lower upper]
    exact Primitive.powers_perm h order

end Sys2Proof.Machine

/-! # Proofs about memory (20_memory.md)

A read-only command's answer depends on the parameters, the contexts and the flags alone, so that a response given
before it does not change it. -/

namespace Sys2Proof.Machine

/-! ### The answer of a read-only command (R28) -/

/-- `o` from `s` and `o'` from `s'` end a command with one and the same result, a response or a fault. -/
def SameAnswer (s s' : State) (o o' : Host.Outcome State Fault Refusal) : Prop :=
  ∃ x : Except Fault Response, o = finish s x ∧ o' = finish s' x

theorem answered_injective (s : State) : Function.Injective (answered s) := by
  intro a b h
  have outboxes : s.outbox ++ [a] = s.outbox ++ [b] := congrArg State.outbox h
  simpa using outboxes

section SameAnswer

variable {s s' : State} {a b a' b' : Host.Outcome State Fault Refusal}

theorem SameAnswer.finish (x : Except Fault Response) : SameAnswer s s' (finish s x) (finish s' x) := ⟨x, rfl, rfl⟩

theorem SameAnswer.fail (st : Status) : SameAnswer s s' (fail st s) (fail st s') :=
  ⟨.ok (failResponse st), rfl, rfl⟩

theorem SameAnswer.ite {c : Prop} [Decidable c] (ha : SameAnswer s s' a a') (hb : SameAnswer s s' b b') :
    SameAnswer s s' (if c then a else b) (if c then a' else b') := by
  split
  · exact ha
  · exact hb

theorem SameAnswer.withField (flag : s'.fvalid = s.fvalid) (ha : SameAnswer s s' a a') :
    SameAnswer s s' (withField s a) (withField s' a') := by
  unfold Machine.withField
  rw [flag]
  exact ha.ite (.fail _)

theorem SameAnswer.withEncoder (flag : s'.evalid = s.evalid) (ha : SameAnswer s s' a a') :
    SameAnswer s s' (withEncoder s a) (withEncoder s' a') := by
  unfold Machine.withEncoder
  rw [flag]
  exact ha.ite (.fail _)

/-- The response of the one is the response of the other. -/
theorem SameAnswer.next {r : Response} (same : SameAnswer s s' a a') (h : a = .next (answered s r)) :
    a' = .next (answered s' r) := by
  obtain ⟨x, rfl, rfl⟩ := same
  obtain ⟨q, rfl, hq⟩ := finish_eq_next.mp h
  rw [finish_ok, answered_injective s hq]

end SameAnswer

/-- The guards, the operand checks and the results of a read-only command read nothing that a response writes. -/
theorem exec_sameAnswer {i : Instr} (reads : readOnly i = true) (s : State) (r : Response) :
    SameAnswer s (answered s r) (exec i s) (exec i (answered s r)) := by
  cases i with
  | gfinit _ => exact absurd reads Bool.false_ne_true
  | encinit _ _ _ => exact absurd reads Bool.false_ne_true
  | gfexp x => exact .withField rfl (.finish _)
  | gfmul x y => exact .withField rfl (.ite (.finish _) (.fail _))
  | rdexp x => exact .withField rfl (.ite (.finish _) (.fail _))
  | rdlog x => exact .withField rfl (.ite (.finish _) (.fail _))
  | rdgen j => exact .withEncoder rfl (.ite (.finish _) (.fail _))
  | encpar len m => exact .withEncoder rfl (.ite (.fail _) (.ite (.fail _) (.finish _)))

/-- Settles O18: each of the two commands only answers, and the other's response in front of it leaves its own as it
was. -/
theorem readOnlyCommandsCommute : Obligations.ReadOnlyCommandsCommute := by
  intro i j s t u hi hj runsI runsJ
  obtain ⟨a, -, rfl⟩ := (exec_ends runsI).answers_of_readOnly hi
  obtain ⟨b, -, rfl⟩ := (exec_ends runsJ).answers_of_readOnly hj
  exact ⟨a, b, rfl, rfl, (exec_sameAnswer hj s a).next runsJ, (exec_sameAnswer hi s b).next runsI⟩

end Sys2Proof.Machine

/-! # Proofs about encoding (30_encoding.md)

The fields of a word, what the decoder reads from a packet with a given opcode, the round trips, the opcode map, illegal
words and the response word. -/

namespace Sys2Proof.Machine

/-! ### The fields of a command word (R35) -/

section Fields

variable (v w : CommandWord)

theorem cwOp_toNat : (cwOp w).toNat = w.toNat / 2 ^ 60 := by
  rw [cwOp, BitVec.extractLsb'_toNat, Nat.shiftRight_eq_div_pow]
  omega

theorem cwZ_toNat : (cwZ w).toNat = w.toNat / 2 ^ 37 % 2 ^ 23 := by
  rw [cwZ, BitVec.extractLsb'_toNat, Nat.shiftRight_eq_div_pow]

theorem cwA_toNat : (cwA w).toNat = w.toNat / 2 ^ 32 % 2 ^ 5 := by
  rw [cwA, BitVec.extractLsb'_toNat, Nat.shiftRight_eq_div_pow]

theorem cwB_toNat : (cwB w).toNat = w.toNat / 2 ^ 16 % 2 ^ 16 := by
  rw [cwB, BitVec.extractLsb'_toNat, Nat.shiftRight_eq_div_pow]

theorem cwC_toNat : (cwC w).toNat = w.toNat % 2 ^ 16 := by
  rw [cwC, BitVec.extractLsb'_toNat, Nat.shiftRight_zero]

theorem cwX_toNat : (cwX w).toNat = w.toNat % 2 ^ 32 := by
  rw [cwX, BitVec.extractLsb'_toNat, Nat.shiftRight_zero]

/-- The fields OP, Z, A, B and C are all of a word. -/
theorem word_eq_iff :
    v = w ↔ cwOp v = cwOp w ∧ cwZ v = cwZ w ∧ cwA v = cwA w ∧ cwB v = cwB w ∧ cwC v = cwC w := by
  constructor
  · rintro rfl
    exact ⟨rfl, rfl, rfl, rfl, rfl⟩
  · simp only [← BitVec.toNat_inj, cwOp_toNat, cwZ_toNat, cwA_toNat, cwB_toNat, cwC_toNat]
    omega

theorem cwX_extract_high : (cwX w).extractLsb' 16 16 = cwB w := by
  apply BitVec.eq_of_toNat_eq
  rw [BitVec.extractLsb'_toNat, Nat.shiftRight_eq_div_pow, cwX_toNat, cwB_toNat]
  omega

theorem cwX_extract_low : (cwX w).extractLsb' 0 16 = cwC w := by
  apply BitVec.eq_of_toNat_eq
  rw [BitVec.extractLsb'_toNat, Nat.shiftRight_zero, cwX_toNat, cwC_toNat]
  omega

end Fields

section Assembled

variable (op : BitVec 4) (a : BitVec 5) (b c : BitVec 16)

/-- The four parts of an assembled word do not overlap, so that OR adds them. -/
theorem assemble_toNat :
    (assemble op a b c).toNat = 2 ^ 60 * op.toNat + (2 ^ 32 * a.toNat + (2 ^ 16 * b.toNat + c.toNat)) := by
  have hop := op.isLt
  have ha := a.isLt
  have hb := b.isLt
  have hc := c.isLt
  have low : 2 ^ 16 * b.toNat + c.toNat < 2 ^ 32 := by omega
  have mid : 2 ^ 32 * a.toNat + (2 ^ 16 * b.toNat + c.toNat) < 2 ^ 60 := by omega
  rw [Nat.two_pow_add_eq_or_of_lt mid, Nat.two_pow_add_eq_or_of_lt low, Nat.two_pow_add_eq_or_of_lt hc]
  simp (disch := omega) only [assemble, BitVec.toNat_or, BitVec.toNat_shiftLeft, BitVec.toNat_setWidth,
    Nat.shiftLeft_eq, Nat.mul_comm, Nat.mod_eq_of_lt, Nat.or_assoc]

theorem cwZ_assemble : cwZ (assemble op a b c) = 0 := by
  apply BitVec.eq_of_toNat_eq
  rw [cwZ_toNat, assemble_toNat, BitVec.ofNat_eq_ofNat, BitVec.toNat_ofNat, Nat.zero_mod]
  omega

theorem cwA_assemble : cwA (assemble op a b c) = a := by
  apply BitVec.eq_of_toNat_eq
  rw [cwA_toNat, assemble_toNat]
  omega

theorem cwB_assemble : cwB (assemble op a b c) = b := by
  apply BitVec.eq_of_toNat_eq
  rw [cwB_toNat, assemble_toNat]
  omega

theorem cwC_assemble : cwC (assemble op a b c) = c := by
  apply BitVec.eq_of_toNat_eq
  rw [cwC_toNat, assemble_toNat]
  omega

end Assembled

/-! ### The decoder, opcode by opcode (R36, R38) -/

/-- OP of an instruction's word (R38). -/
def opcode : Instr → BitVec 4
  | .gfinit _ => 0x1
  | .gfexp _ => 0x2
  | .gfmul _ _ => 0x3
  | .encinit _ _ _ => 0x4
  | .encpar _ _ => 0x5
  | .rdexp _ => 0x6
  | .rdlog _ => 0x7
  | .rdgen _ => 0x8

/-- The fields that the format of an instruction leaves without an operand are zero in a word (R36, R40 (c)). -/
def unusedZero (cw : CommandWord) : Instr → Bool
  | .gfinit _ => cwB cw == 0 && cwC cw == 0
  | .encinit _ _ _ => true
  | .gfexp _ | .gfmul _ _ | .encpar _ _ | .rdexp _ | .rdlog _ | .rdgen _ => cwA cw == 0

/-- The instruction of the same command whose operands are the fields and the payload of a packet (R36, R37). -/
def readOperands (cw : CommandWord) (m : List Elem) : Instr → Instr
  | .gfinit _ => .gfinit (cwA cw)
  | .gfexp _ => .gfexp (cwX cw)
  | .gfmul _ _ => .gfmul (cwB cw) (cwC cw)
  | .encinit _ _ _ => .encinit (cwB cw) (cwC cw) (cwA cw)
  | .encpar _ _ => .encpar (cwX cw) m
  | .rdexp _ => .rdexp (cwX cw)
  | .rdlog _ => .rdlog (cwX cw)
  | .rdgen _ => .rdgen (cwX cw)

/-- One instruction of every command, in the order of R38. -/
def commands : List Instr :=
  [.gfinit 0, .gfexp 0, .gfmul 0 0, .encinit 0 0 0, .encpar 0 [], .rdexp 0, .rdlog 0, .rdgen 0]

/-- OP is 0x0 or in 0x9 .. 0xF (R40 (a)). -/
def ReservedOpcode (cw : CommandWord) : Prop := cwOp cw = 0 ∨ 9 ≤ (cwOp cw).toNat

section Decoding

variable {cw : CommandWord} {m : List Elem} {i : Instr}

@[simp] theorem opcode_readOperands : opcode (readOperands cw m i) = opcode i := by cases i <;> rfl

@[simp] theorem unusedZero_readOperands : unusedZero cw (readOperands cw m i) = unusedZero cw i := by cases i <;> rfl

@[simp] theorem opRow_readOperands : opRow (readOperands cw m i) = opRow i := by cases i <;> rfl

@[simp] theorem readOperands_readOperands : readOperands cw m (readOperands cw m i) = readOperands cw m i := by
  cases i <;> rfl

theorem checkFields_eq_ok {z unused : Bool} {j : Instr} :
    checkFields z unused i = .ok j ↔ z = true ∧ unused = true ∧ i = j := by
  cases z <;> cases unused <;> simp [checkFields]

theorem checkFields_error {z unused : Bool} :
    (∃ e, checkFields z unused i = .error e) ↔ z = false ∨ unused = false := by
  cases z <;> cases unused <;> simp [checkFields]

/-- What the decoder does with a word that has a command's opcode. -/
theorem decode_of_opcode (op : cwOp cw = opcode i) :
    decode cw m = checkFields (cwZ cw == 0) (unusedZero cw i) (readOperands cw m i) := by
  unfold decode
  rw [op]
  cases i <;> rfl

theorem decode_of_reserved (reserved : ReservedOpcode cw) : decode cw m = .error .reservedOpcode := by
  unfold decode
  obtain zero | high := reserved
  · rw [zero]
    rfl
  · split
    case h_9 => rfl
    all_goals omega

/-- An opcode is reserved or belongs to a command. -/
theorem reserved_or_opcode (cw : CommandWord) : ReservedOpcode cw ∨ ∃ i, cwOp cw = opcode i := by
  have all : ∀ op : BitVec 4, (op = 0 ∨ 9 ≤ op.toNat) ∨ ∃ i ∈ commands, op = opcode i := by decide
  exact (all (cwOp cw)).imp_right fun ⟨i, _, op⟩ => ⟨i, op⟩

/-- The decoder gives back an instruction exactly from a word with its opcode, with Z and the fields without an operand
zero, whose operand fields and payload hold its operands. -/
theorem decode_eq_ok :
    decode cw m = .ok i ↔ cwOp cw = opcode i ∧ cwZ cw = 0 ∧ unusedZero cw i = true ∧ readOperands cw m i = i := by
  constructor
  · intro decodes
    obtain reserved | ⟨j, op⟩ := reserved_or_opcode cw
    · rw [decode_of_reserved reserved] at decodes
      cases decodes
    · obtain ⟨z, unused, rfl⟩ := checkFields_eq_ok.mp ((decode_of_opcode op).symm.trans decodes)
      simpa [op, unused] using z
  · rintro ⟨op, z, unused, operands⟩
    rw [decode_of_opcode op, checkFields_eq_ok]
    simp [z, unused, operands]

end Decoding

/-! ### The two round trips (R36, R37) -/

section RoundTrips

variable {cw : CommandWord} {m : List Elem} {i : Instr}

theorem cwOp_encodeWord (i : Instr) : cwOp (encodeWord i) = opcode i := by
  cases i <;> exact Laws.Framing.cwOp_assemble ..

theorem cwZ_encodeWord (i : Instr) : cwZ (encodeWord i) = 0 := by
  cases i <;> exact cwZ_assemble ..

theorem unusedZero_encodeWord (i : Instr) : unusedZero (encodeWord i) i = true := by
  cases i <;> simp [unusedZero, encodeWord, assembleX, cwA_assemble, cwB_assemble, cwC_assemble]

theorem readOperands_encode (i : Instr) : readOperands (encodeWord i) (encodePayload i) i = i := by
  cases i <;>
    simp [readOperands, encodeWord, encodePayload, cwA_assemble, cwB_assemble, cwC_assemble,
      Laws.Framing.cwX_assembleX]

theorem decode_encode (i : Instr) : decode (encodeWord i) (encodePayload i) = .ok i :=
  decode_eq_ok.mpr ⟨cwOp_encodeWord i, cwZ_encodeWord i, unusedZero_encodeWord i, readOperands_encode i⟩

/-- With Z zero the other fields assemble to the word. -/
theorem assemble_fields (z : cwZ cw = 0) : assemble (cwOp cw) (cwA cw) (cwB cw) (cwC cw) = cw :=
  (word_eq_iff _ _).mpr
    ⟨Laws.Framing.cwOp_assemble .., (cwZ_assemble ..).trans z.symm, cwA_assemble .., cwB_assemble .., cwC_assemble ..⟩

/-- With Z and A zero OP and X assemble to the word. -/
theorem assembleX_fields (z : cwZ cw = 0) (a : cwA cw = 0) : assembleX (cwOp cw) (cwX cw) = cw := by
  rw [assembleX, cwX_extract_high, cwX_extract_low, ← a, assemble_fields z]

theorem encodeWord_readOperands (op : cwOp cw = opcode i) (z : cwZ cw = 0) (unused : unusedZero cw i = true) :
    encodeWord (readOperands cw m i) = cw := by
  have fields : assemble (opcode i) (cwA cw) (cwB cw) (cwC cw) = cw := op ▸ assemble_fields z
  have fieldsX : cwA cw = 0 → assembleX (opcode i) (cwX cw) = cw := op ▸ assembleX_fields z
  cases i with
  | gfinit r =>
    obtain ⟨b, c⟩ : cwB cw = 0 ∧ cwC cw = 0 := by simpa [unusedZero] using unused
    rwa [b, c] at fields
  | gfmul x y =>
    have a : cwA cw = 0 := eq_of_beq unused
    rwa [a] at fields
  | encinit k s r => exact fields
  | gfexp _ | encpar _ _ | rdexp _ | rdlog _ | rdgen _ => exact fieldsX (eq_of_beq unused)

theorem payload_length_of_opcode {p : Packet} (op : cwOp p.cw = opcode i) :
    p.payload.length = if opcode i = 0x5 then (cwX p.cw).toNat else 0 := op ▸ p.framed

/-- Only ENCPAR is followed by a payload, so that no payload word of a packet is dropped (R34, R37). -/
theorem encodePayload_readOperands {p : Packet} (op : cwOp p.cw = opcode i) :
    encodePayload (readOperands p.cw p.payload i) = p.payload := by
  have framed := payload_length_of_opcode op
  cases i with
  | encpar len m => rfl
  | gfinit _ | gfexp _ | gfmul _ _ | encinit _ _ _ | rdexp _ | rdlog _ | rdgen _ =>
    exact (List.eq_nil_of_length_eq_zero framed).symm

/-- The payload that a packet brings to ENCPAR has LEN words. -/
theorem wf_readOperands {p : Packet} (op : cwOp p.cw = opcode i) : (readOperands p.cw p.payload i).wf = true := by
  have framed := payload_length_of_opcode op
  cases i with
  | encpar len m => exact beq_iff_eq.mpr framed
  | gfinit _ | gfexp _ | gfmul _ _ | encinit _ _ _ | rdexp _ | rdlog _ | rdgen _ => rfl

end RoundTrips

/-- Settles O1: OP of the encoded word selects the instruction's own arm of the decoder, the fields without an operand
are zero, and every other field holds its operand. -/
theorem decodeReadsEncodedInstruction : Obligations.DecodeReadsEncodedInstruction := fun i _ => decode_encode i

/-- Settles O2: a legal word is put together again from its own fields, and only ENCPAR is followed by a payload. -/
theorem decodedInstructionEncodesBack : Obligations.DecodedInstructionEncodesBack := by
  intro p i decodes
  obtain ⟨op, z, unused, operands⟩ := decode_eq_ok.mp decodes
  rw [← operands]
  exact ⟨wf_readOperands op, Prod.ext (encodeWord_readOperands op z unused) (encodePayload_readOperands op)⟩

/-! ### The opcode map (R38) -/

section OpcodeMap

variable {cw : CommandWord} {i : Instr}

/-- A row's mask and match are compared field by field. -/
theorem selects_iff {row : OpRow} :
    row.selects cw = true ↔
      cwOp cw &&& cwOp row.mask = cwOp row.pattern ∧ cwZ cw &&& cwZ row.mask = cwZ row.pattern ∧
        cwA cw &&& cwA row.mask = cwA row.pattern ∧ cwB cw &&& cwB row.mask = cwB row.pattern ∧
        cwC cw &&& cwC row.mask = cwC row.pattern := by
  rw [OpRow.selects, beq_iff_eq, word_eq_iff]
  simp only [cwOp, cwZ, cwA, cwB, cwC, BitVec.extractLsb'_and]

/-- Of the operand fields a row's mask covers exactly those without an operand. -/
theorem unusedZero_iff_masked :
    unusedZero cw i = true ↔
      cwA cw &&& cwA (opRow i).mask = 0 ∧ cwB cw &&& cwB (opRow i).mask = 0 ∧ cwC cw &&& cwC (opRow i).mask = 0 := by
  cases i with
  | gfinit _ =>
    obtain ⟨a, b, c⟩ : cwA 0xFFFFFFE0FFFFFFFF = 0 ∧ cwB 0xFFFFFFE0FFFFFFFF = BitVec.allOnes 16 ∧
        cwC 0xFFFFFFE0FFFFFFFF = BitVec.allOnes 16 := by decide
    simp only [opRow, a, b, c, BitVec.and_allOnes]
    simp [unusedZero]
  | encinit _ _ _ =>
    obtain ⟨a, b, c⟩ : cwA 0xFFFFFFE000000000 = 0 ∧ cwB 0xFFFFFFE000000000 = 0 ∧
        cwC 0xFFFFFFE000000000 = 0 := by decide
    simp only [opRow, a, b, c]
    simp [unusedZero]
  | gfexp _ | gfmul _ _ | encpar _ _ | rdexp _ | rdlog _ | rdgen _ =>
    obtain ⟨a, b, c⟩ : cwA 0xFFFFFFFF00000000 = BitVec.allOnes 5 ∧ cwB 0xFFFFFFFF00000000 = 0 ∧
        cwC 0xFFFFFFFF00000000 = 0 := by decide
    simp only [opRow, a, b, c, BitVec.and_allOnes]
    simp [unusedZero]

/-- A row's mask covers OP and Z. -/
theorem opRow_mask (i : Instr) :
    cwOp (opRow i).mask = BitVec.allOnes 4 ∧ cwZ (opRow i).mask = BitVec.allOnes 23 := by
  cases i <;> simp only [opRow] <;> decide

/-- A row's match holds the opcode, and zero in every other field. -/
theorem opRow_pattern (i : Instr) : (opRow i).pattern = assemble (opcode i) 0 0 0 := by
  cases i <;> simp only [opRow, opcode] <;> decide

/-- A row selects the words with its opcode in which Z and the fields without an operand are zero. -/
theorem opRow_selects_iff :
    (opRow i).selects cw = true ↔ cwOp cw = opcode i ∧ cwZ cw = 0 ∧ unusedZero cw i = true := by
  obtain ⟨maskOp, maskZ⟩ := opRow_mask i
  rw [selects_iff, unusedZero_iff_masked, maskOp, maskZ, opRow_pattern, Laws.Framing.cwOp_assemble, cwZ_assemble,
    cwA_assemble, cwB_assemble, cwC_assemble, BitVec.and_allOnes, BitVec.and_allOnes]

theorem mem_opRows {row : OpRow} (mem : row ∈ opRows) : ∃ i, opRow i = row := by
  have rows : opRows = commands.map opRow := rfl
  rw [rows, List.mem_map] at mem
  obtain ⟨i, -, eq⟩ := mem
  exact ⟨i, eq⟩

end OpcodeMap

/-- Settles O3: a row selects exactly the words with its opcode, Z zero and the fields without an operand zero, which
are the words that its command decodes from. -/
theorem opcodeMapSelectsDecodedCommand : Obligations.OpcodeMapSelectsDecodedCommand := by
  intro cw m
  constructor
  · intro i decodes
    obtain ⟨op, z, unused, -⟩ := decode_eq_ok.mp decodes
    exact opRow_selects_iff.mpr ⟨op, z, unused⟩
  · intro row mem selects
    obtain ⟨i, rfl⟩ := mem_opRows mem
    obtain ⟨op, z, unused⟩ := opRow_selects_iff.mp selects
    exact ⟨readOperands cw m i, decode_eq_ok.mpr (by simp [op, z, unused]), opRow_readOperands⟩

/-! ### Illegal words (R40) -/

section IllegalWords

variable {cw : CommandWord} {m : List Elem} {i : Instr}

theorem illegalWord_of_opcode (op : cwOp cw = opcode i) :
    IllegalWord cw ↔ cwZ cw ≠ 0 ∨ unusedZero cw i = false := by
  unfold IllegalWord
  rw [op]
  cases i <;> simp [opcode, unusedZero, imp_iff_not_or]

theorem illegalWord_iff_decode_error : IllegalWord cw ↔ ∃ e, decode cw m = .error e := by
  obtain reserved | ⟨i, op⟩ := reserved_or_opcode cw
  · exact iff_of_true (.inl reserved) ⟨_, decode_of_reserved reserved⟩
  · rw [illegalWord_of_opcode op, decode_of_opcode op, checkFields_error, beq_eq_false_iff_ne]

theorem runPacket_of_illegal {p : Packet} {s : State} (illegal : IllegalWord p.cw) :
    runPacket p s = .next (answered s (failResponse .illegalCommand)) := by
  obtain ⟨e, decodes⟩ := illegalWord_iff_decode_error.mp illegal
  rw [runPacket, decodes]
  exact fail_eq _ _

end IllegalWords

/-- Settles O4: the reasons of R40 are those for which the decoder answers no instruction, every packet is framed, and
`runPacket` answers an illegal word by `fail`. -/
theorem illegalWordsAreRefused : Obligations.IllegalWordsAreRefused := by
  refine ⟨fun _ _ => illegalWord_iff_decode_error, fun p => p.framed, fun s p rest waits illegal => ?_⟩
  rw [step_of_command waits, runPacket_of_illegal illegal]
  rfl

/-! ### One response for every command (R34, R64) -/

/-- However a command ends, it gives one proper response and leaves the host's moves alone. -/
theorem Ends.one_response {i : Instr} {s t : State} (ends : Ends i s t) :
    t.inbox = s.inbox ∧ t.resets = s.resets ∧ ∃ r : Response, t.outbox = s.outbox ++ [r] ∧ r.wf := by
  cases ends with
  | answers r proper => exact ⟨rfl, rfl, r, rfl, proper⟩
  | builtField _ _ _ => exact ⟨rfl, rfl, _, rfl, okResponse_wf _ _⟩
  | builtEncoder _ _ _ _ _ _ _ => exact ⟨rfl, rfl, _, rfl, okResponse_wf _ _⟩

/-- Settles O10: the packet is taken off the inbox before it runs, and a command or an illegal word then gives one
response. -/
theorem eachCommandGetsOneResponse : Obligations.EachCommandGetsOneResponse := by
  intro s t p rest waits runs
  rw [step_of_command waits, runPacket] at runs
  split at runs
  · exact (exec_ends runs).one_response
  · obtain rfl : answered { s with inbox := rest } (failResponse .illegalCommand) = t := by
      simpa [answerIllegal, fail_eq] using runs
    exact ⟨rfl, rfl, _, rfl, failResponse_wf _⟩

/-! ### The response word (R39) -/

/-- The status code and VAL do not overlap, so that OR adds them. -/
theorem responseWord_toNat (r : Response) : r.word.toNat = 2 ^ 60 * r.status.code.toNat + r.val.toNat := by
  have hcode := r.status.code.isLt
  have hval := r.val.isLt
  have low : r.val.toNat < 2 ^ 60 := by omega
  rw [Nat.two_pow_add_eq_or_of_lt low]
  simp (disch := omega) only [Response.word, BitVec.toNat_or, BitVec.toNat_shiftLeft, BitVec.toNat_setWidth,
    Nat.shiftLeft_eq, Nat.mul_comm, Nat.mod_eq_of_lt]

/-- Settles O6: each field is read off the word as a number. -/
theorem responseWordHoldsStatusAndValue : Obligations.ResponseWordHoldsStatusAndValue := by
  refine ⟨fun r => ?_, rfl⟩
  have hval := r.val.isLt
  have hword := responseWord_toNat r
  refine ⟨BitVec.eq_of_toNat_eq ?_, BitVec.eq_of_toNat_eq ?_, BitVec.eq_of_toNat_eq ?_⟩
  · rw [BitVec.extractLsb'_toNat, Nat.shiftRight_eq_div_pow]
    omega
  · rw [BitVec.extractLsb'_toNat, Nat.shiftRight_eq_div_pow, BitVec.ofNat_eq_ofNat, BitVec.toNat_ofNat, Nat.zero_mod]
    omega
  · rw [BitVec.extractLsb'_toNat, Nat.shiftRight_zero]
    omega

end Sys2Proof.Machine

/-! # Proofs about the field engine (40_field.md)

The step of FieldBuild is multiplication by alpha. From this follow what the tables hold, Exp, Log and Mul over them,
the laws of the field, the product modulo PRIM[r], and the five commands. -/

namespace Sys2Proof.Machine

/-! ### Linear maps on bit strings -/

/-- L takes XOR to XOR: it is linear over GF(2). -/
def XorLinear (L : Nat → Nat) : Prop := ∀ p q, L (p ^^^ q) = L p ^^^ L q

/-- Add g(b) to a sum when bit b of y is set. -/
def addAtBit (g : Nat → Nat) (y acc b : Nat) : Nat := if y.testBit b then acc ^^^ g b else acc

/-- The XOR of g(b) over the set bits b of y, of which only the low 16 count. -/
def bitSum (g : Nat → Nat) (y : Nat) : Nat := (List.range 16).foldl (addAtBit g y) 0

theorem clmul_eq_bitSum (x y : Nat) : clmul x y = bitSum (x <<< ·) y := rfl

section BitStrings

variable {L : Nat → Nat}

theorem XorLinear.map_zero (linear : XorLinear L) : L 0 = 0 := by
  have h := linear 0 0
  rwa [Nat.xor_self, Nat.xor_self] at h

theorem XorLinear.iterate (linear : XorLinear L) (n : Nat) : XorLinear L^[n] := by
  intro p q
  induction n with
  | zero => rfl
  | succ n ih => simp only [Function.iterate_succ_apply', ih, linear _ _]

theorem XorLinear.map_bitSum (linear : XorLinear L) (g : Nat → Nat) (y : Nat) :
    L (bitSum g y) = bitSum (fun b => L (g b)) y := by
  have added : ∀ acc b, addAtBit (fun b => L (g b)) y (L acc) b = L (addAtBit g y acc b) := by
    intro acc b
    unfold addAtBit
    rw [apply_ite L, linear]
  rw [bitSum, bitSum, ← List.foldl_hom L added, linear.map_zero]

/-- A number is the XOR of the powers of two at its set bits. -/
theorem bitSum_two_pow {y : Nat} (fits : y < 2 ^ 16) : bitSum (2 ^ ·) y = y := by
  have low : ∀ n, (List.range n).foldl (addAtBit (2 ^ ·) y) 0 = y % 2 ^ n := by
    intro n
    induction n with
    | zero => simp [Nat.mod_one]
    | succ n ih =>
      rw [List.range_succ, List.foldl_append, ih, List.foldl_cons, List.foldl_nil]
      apply Nat.eq_of_testBit_eq
      intro i
      unfold addAtBit
      rcases Nat.lt_trichotomy i n with lt | rfl | gt
      · split <;> simp [Nat.testBit_mod_two_pow, lt, lt.ne', Nat.lt_succ_of_lt lt]
      · split
        · next bit => simp [Nat.testBit_mod_two_pow, bit]
        · next bit => simp [Nat.testBit_mod_two_pow, bit]
      · split <;> simp [Nat.testBit_mod_two_pow, gt.ne, gt.not_gt, show ¬ i < n + 1 by omega]
  exact (low 16).trans (Nat.mod_eq_of_lt fits)

theorem zero_clmul (y : Nat) : clmul 0 y = 0 := by
  have zeroMap : XorLinear fun _ => 0 := fun _ _ => (Nat.xor_self 0).symm
  have shifted : ∀ b, 0 <<< b = 0 := Nat.zero_shiftLeft
  rw [clmul_eq_bitSum, funext shifted]
  exact (zeroMap.map_bitSum id y).symm

/-- The carry-less product of two polynomials of degree below r has degree below 2r - 1. -/
theorem clmul_lt {r x y : Nat} (hx : x < 2 ^ r) (hy : y < 2 ^ r) : clmul x y < 2 ^ (r + (r - 1)) := by
  refine List.foldlRecOn (motive := (· < 2 ^ (r + (r - 1)))) _ _ (Nat.two_pow_pos _) fun acc small b _ => ?_
  split
  · next bit =>
    have hb : b < r := Nat.lt_of_not_le fun above => by simp [testBit_above hy above] at bit
    refine Nat.xor_lt_two_pow small ?_
    calc x <<< b = x * 2 ^ b := Nat.shiftLeft_eq x b
      _ < 2 ^ r * 2 ^ b := Nat.mul_lt_mul_of_pos_right hx (Nat.two_pow_pos b)
      _ = 2 ^ (r + b) := (Nat.pow_add 2 r b).symm
      _ ≤ 2 ^ (r + (r - 1)) := Nat.pow_le_pow_right (by decide) (by omega)
  · exact small

end BitStrings

/-! ### The step is multiplication by alpha (R42) -/

section Step

variable {poly r : Nat}

/-- Two XORs with the polynomial cancel. -/
theorem stepNat_xorLinear : XorLinear (stepNat poly r) := by
  intro p q
  unfold stepNat
  rw [Nat.testBit_xor, Nat.shiftLeft_xor_distrib]
  cases p.testBit (r - 1) <;> cases q.testBit (r - 1)
  · rfl
  · exact Nat.xor_assoc _ _ _
  · exact Nat.xor_right_comm _ _ _
  · simp [Nat.xor_left_comm, Nat.xor_comm]

/-- A symbol whose double is still a symbol is only doubled. -/
theorem stepNat_of_small (hr : 1 ≤ r) {p : Nat} (small : 2 * p < 2 ^ r) : stepNat poly r p = 2 * p := by
  have clear : p.testBit (r - 1) = false := by
    obtain ⟨n, rfl⟩ := Nat.exists_eq_add_of_le' hr
    exact Nat.testBit_lt_two_pow (by rw [Nat.add_sub_cancel]; omega)
  rw [stepNat, clear, if_neg Bool.false_ne_true, Nat.shiftLeft_eq, Nat.pow_one, Nat.mul_comm]

/-- The step in the form of R42 that keeps r bits. -/
theorem stepNat_eq_truncated (hr : 1 ≤ r) (top : poly.testBit r = true) (deg : poly < 2 ^ (r + 1)) {p : Nat}
    (hp : p < 2 ^ r) :
    stepNat poly r p = (2 * p) % 2 ^ r ^^^ (if p.testBit (r - 1) then poly % 2 ^ r else 0) := by
  rw [← Nat.mod_eq_of_lt (stepNat_lt hr top deg hp), stepNat, Nat.shiftLeft_eq, Nat.pow_one, Nat.mul_comm]
  split
  · exact Nat.xor_mod_two_pow
  · exact (Nat.xor_zero _).symm

theorem alphaPow_eq_iterate (i : Nat) : alphaPow poly r i = (stepNat poly r)^[i] 1 := by
  induction i with
  | zero => rfl
  | succ i ih => rw [alphaPow, ih, Function.iterate_succ_apply']

/-- alpha^i * alpha^j = alpha^(i + j), where i steps multiply by alpha^i. -/
theorem iterate_alphaPow (i j : Nat) : (stepNat poly r)^[i] (alphaPow poly r j) = alphaPow poly r (i + j) := by
  rw [alphaPow_eq_iterate, alphaPow_eq_iterate, Function.iterate_add_apply]

theorem Primitive.alphaPow_mod (h : Primitive poly r) (i : Nat) :
    alphaPow poly r (i % (2 ^ r - 1)) = alphaPow poly r i := by
  have periodic : Function.Periodic (alphaPow poly r) (2 ^ r - 1) := by
    intro j
    rw [← iterate_alphaPow, h.period, ← alphaPow_eq_iterate]
  exact periodic.map_mod_nat i

end Step

/-! ### Reduction modulo PRIM[r] keeps the value at alpha (R53) -/

/-- The value at alpha, by Horner's rule, of the polynomial over GF(2) whose coefficients are the bits of p. -/
def valueAtAlpha (poly r p : Nat) : Nat :=
  if p = 0 then 0 else p % 2 ^^^ stepNat poly r (valueAtAlpha poly r (p / 2))
termination_by p

theorem mod_two_xor_double (p : Nat) : p % 2 ^^^ 2 * (p / 2) = p := by
  rcases Nat.mod_two_eq_zero_or_one p with even | odd
  · rw [even, Nat.zero_xor]
    omega
  · rw [odd, Nat.xor_comm, Nat.xor_one_of_even (even_two_mul _)]
    omega

section Value

variable {poly r : Nat}

@[simp] theorem valueAtAlpha_zero : valueAtAlpha poly r 0 = 0 := by
  rw [valueAtAlpha, if_pos rfl]

theorem valueAtAlpha_eq (p : Nat) :
    valueAtAlpha poly r p = p % 2 ^^^ stepNat poly r (valueAtAlpha poly r (p / 2)) := by
  rcases Nat.eq_zero_or_pos p with rfl | pos
  · simp [stepNat_xorLinear.map_zero]
  · rw [valueAtAlpha, if_neg pos.ne']

theorem valueAtAlpha_xorLinear : XorLinear (valueAtAlpha poly r) := by
  intro p q
  induction p using Nat.strongRecOn generalizing q with
  | ind p ih =>
    rcases Nat.eq_zero_or_pos p with rfl | pos
    · simp
    · have low : (p ^^^ q) % 2 = p % 2 ^^^ q % 2 := Nat.xor_mod_two_pow (n := 1)
      rw [valueAtAlpha_eq (p ^^^ q), valueAtAlpha_eq p, valueAtAlpha_eq q, low, Nat.xor_div_two,
        ih (p / 2) (by omega), stepNat_xorLinear]
      ac_rfl

/-- A symbol of the field is its own value. -/
theorem valueAtAlpha_of_lt (hr : 1 ≤ r) {p : Nat} (hp : p < 2 ^ r) : valueAtAlpha poly r p = p := by
  induction p using Nat.strongRecOn with
  | ind p ih =>
    rcases Nat.eq_zero_or_pos p with rfl | pos
    · exact valueAtAlpha_zero
    · rw [valueAtAlpha_eq, ih (p / 2) (by omega) (by omega), stepNat_of_small hr (by omega), mod_two_xor_double]

/-- A shift by b multiplies the value by alpha^b. -/
theorem valueAtAlpha_shiftLeft (p b : Nat) :
    valueAtAlpha poly r (p <<< b) = (stepNat poly r)^[b] (valueAtAlpha poly r p) := by
  induction b with
  | zero => rfl
  | succ b ih =>
    have even : p <<< (b + 1) = 2 * p <<< b := Nat.shiftLeft_succ p b
    rw [valueAtAlpha_eq, even, Nat.mul_mod_right, Nat.zero_xor, Nat.mul_div_cancel_left _ (by decide), ih,
      Function.iterate_succ_apply']

theorem valueAtAlpha_two_pow (hr : 1 ≤ r) (b : Nat) : valueAtAlpha poly r (2 ^ b) = alphaPow poly r b := by
  rw [← Nat.one_shiftLeft, valueAtAlpha_shiftLeft, valueAtAlpha_of_lt hr (Nat.one_lt_two_pow (by omega)),
    alphaPow_eq_iterate]

end Value

section Reduction

variable {poly r : Nat}

/-- Clearing bit b leaves only lower bits. -/
theorem reduceStep_lt (top : poly.testBit r = true) (deg : poly < 2 ^ (r + 1)) {p b : Nat} (hb : r ≤ b)
    (hp : p < 2 ^ (b + 1)) : reduceStep poly r p b < 2 ^ b := by
  apply Nat.lt_pow_two_of_testBit
  intro i hi
  unfold reduceStep
  rcases Nat.eq_or_lt_of_le hi with rfl | above
  · split
    · next bit => simp [bit, Nat.sub_sub_self hb, top]
    · next bit => simpa using bit
  · have high : p.testBit i = false := testBit_above hp above
    have highPoly : poly.testBit (i - (b - r)) = false := testBit_above deg (by omega)
    split <;> simp [high, highPoly]

variable (hr : 1 ≤ r) (top : poly.testBit r = true) (deg : poly < 2 ^ (r + 1))

include hr top deg

/-- alpha is a root of its polynomial: the step of poly / 2 XORs poly away. -/
theorem valueAtAlpha_poly : valueAtAlpha poly r poly = 0 := by
  have carry : (poly / 2).testBit (r - 1) = true := by
    rw [Nat.testBit_div_two, Nat.sub_add_cancel hr, top]
  have half : poly / 2 < 2 ^ r := by omega
  rw [valueAtAlpha_eq, valueAtAlpha_of_lt hr half, stepNat, carry, if_pos rfl, Nat.shiftLeft_eq, Nat.pow_one,
    Nat.mul_comm, ← Nat.xor_assoc, mod_two_xor_double, Nat.xor_self]

theorem valueAtAlpha_reduceStep (p b : Nat) :
    valueAtAlpha poly r (reduceStep poly r p b) = valueAtAlpha poly r p := by
  unfold reduceStep
  split
  · rw [valueAtAlpha_xorLinear, valueAtAlpha_shiftLeft, valueAtAlpha_poly hr top deg,
      (stepNat_xorLinear.iterate _).map_zero, Nat.xor_zero]
  · rfl

/-- The loop of R53 from bit r + n - 1 down to r. -/
theorem reduceLoop_eq_value {n p : Nat} (hp : p < 2 ^ (r + n)) :
    (downTo (r + n - 1) r).foldl (reduceStep poly r) p = valueAtAlpha poly r p := by
  induction n generalizing p with
  | zero =>
    have empty : downTo (r - 1) r = [] := by rw [downTo, upTo_empty (Nat.sub_lt hr Nat.one_pos), List.reverse_nil]
    rw [Nat.add_zero, empty, List.foldl_nil, valueAtAlpha_of_lt hr hp]
  | succ n ih =>
    have highest : downTo (r + (n + 1) - 1) r = (r + n) :: downTo (r + n - 1) r := by
      have cons := downTo_cons (a := r + n - 1) (b := r) (by omega)
      rwa [Nat.sub_add_cancel (by omega)] at cons
    rw [highest, List.foldl_cons, ih (reduceStep_lt top deg (Nat.le_add_right r n) hp),
      valueAtAlpha_reduceStep hr top deg]

theorem reduceNat_eq_value {p : Nat} (hp : p < 2 ^ (r + (r - 1))) : reduceNat poly r p = valueAtAlpha poly r p := by
  have bits : 2 * r - 2 = r + (r - 1) - 1 := by omega
  rw [reduceNat, bits, reduceLoop_eq_value hr top deg hp]

/-- alpha^i times a symbol, by the carry-less product and reduction, is i steps from the symbol. -/
theorem reduceNat_clmul_alphaPow (upper : r ≤ 16) (i : Nat) {y : Nat} (hy : y < 2 ^ r) :
    reduceNat poly r (clmul (alphaPow poly r i) y) = (stepNat poly r)^[i] y := by
  have hx := alphaPow_lt hr top deg i
  have fits : y < 2 ^ 16 := hy.trans_le (Nat.pow_le_pow_right (by decide) upper)
  have shifted : ∀ b, valueAtAlpha poly r (alphaPow poly r i <<< b) =
      (stepNat poly r)^[i] (valueAtAlpha poly r (2 ^ b)) := by
    intro b
    rw [valueAtAlpha_shiftLeft, valueAtAlpha_of_lt hr hx, valueAtAlpha_two_pow hr, iterate_alphaPow, iterate_alphaPow,
      Nat.add_comm]
  calc reduceNat poly r (clmul (alphaPow poly r i) y)
      = valueAtAlpha poly r (clmul (alphaPow poly r i) y) := reduceNat_eq_value hr top deg (clmul_lt hx hy)
    _ = bitSum (fun b => (stepNat poly r)^[i] (valueAtAlpha poly r (2 ^ b))) y := by
        rw [clmul_eq_bitSum, valueAtAlpha_xorLinear.map_bitSum, funext shifted]
    _ = (stepNat poly r)^[i] (valueAtAlpha poly r (bitSum (2 ^ ·) y)) := by
        rw [valueAtAlpha_xorLinear.map_bitSum, (stepNat_xorLinear.iterate i).map_bitSum]
    _ = (stepNat poly r)^[i] y := by rw [bitSum_two_pow fits, valueAtAlpha_of_lt hr hy]

end Reduction

/-- Settles O22: nothing is lost on 17 bits, and the low r bits of the exact step are the whole of it. -/
theorem alphaStepIsExact : Obligations.AlphaStepIsExact := by
  intro poly r p lower upper top degree small
  rw [alphaStep_toNat lower upper top degree small]
  exact ⟨rfl, stepNat_eq_truncated lower top degree small, stepNat_lt lower top degree small⟩

/-! ### Exp, Log and Mul over the tables of FieldBuild (R43, R44, R45) -/

theorem alphaIter_eq_iterate (poly : Poly) (r i : Nat) : alphaIter poly r i = (alphaStep poly r)^[i] 1 := by
  induction i with
  | zero => rfl
  | succ i ih => rw [alphaIter, ih, Function.iterate_succ_apply']

/-- alpha^(i + j) depends on alpha^i and alpha^j alone. -/
theorem alphaIter_add_congr {poly : Poly} {r i i' j j' : Nat} (hi : alphaIter poly r i = alphaIter poly r i')
    (hj : alphaIter poly r j = alphaIter poly r j') : alphaIter poly r (i + j) = alphaIter poly r (i' + j') := by
  simp only [alphaIter_eq_iterate] at hi hj ⊢
  rw [Function.iterate_add_apply, hj, ← Function.iterate_add_apply, Nat.add_comm, Function.iterate_add_apply, hi,
    ← Function.iterate_add_apply, Nat.add_comm]

/-- LOG holds no value at a symbol that the loop never produces. -/
theorem lastProduced_of_never {poly : Poly} {r x : Nat} (never : ∀ i, (alphaIter poly r i).toNat ≠ x) (n : Nat) :
    lastProduced poly r x n = none := by
  induction n with
  | zero => rfl
  | succ n ih => rw [lastProduced, if_neg (never (n + 1)), ih]

section FieldEngine

variable {prim : PrimTable} {r : Nat} (h : PrimAt prim r) (lower : rMin ≤ r) (upper : r ≤ rMax)

include h lower upper

theorem PrimAt.alphaIter_lt (i : Nat) : (alphaIter (primEntry prim r) r i).toNat < 2 ^ r := by
  rw [h.alphaIter_toNat lower upper]
  exact alphaPow_lt (Nat.one_le_of_lt lower) h.top h.degree i

theorem PrimAt.one_le_alphaIter (i : Nat) : 1 ≤ (alphaIter (primEntry prim r) r i).toNat := by
  rw [h.alphaIter_toNat lower upper]
  exact Nat.pos_of_ne_zero (alphaPow_ne_zero h.bottom i)

theorem PrimAt.alphaIter_ne_zero (i : Nat) : alphaIter (primEntry prim r) r i ≠ 0 := by
  intro zero
  have pos := h.one_le_alphaIter lower upper i
  rw [zero] at pos
  exact absurd pos (by decide)

theorem PrimAt.alphaIter_mod (i : Nat) :
    alphaIter (primEntry prim r) r (i % (2 ^ r - 1)) = alphaIter (primEntry prim r) r i := by
  apply BitVec.eq_of_toNat_eq
  rw [h.alphaIter_toNat lower upper, h.alphaIter_toNat lower upper, Primitive.alphaPow_mod h]

theorem PrimAt.alphaIter_period : alphaIter (primEntry prim r) r (2 ^ r - 1) = 1 :=
  BitVec.eq_of_toNat_eq ((h.alphaIter_toNat lower upper _).trans h.period)

theorem PrimAt.exists_alphaIter {x : Elem} (nonzero : x ≠ 0) (hx : x.toNat < 2 ^ r) :
    ∃ i, 1 ≤ i ∧ i ≤ 2 ^ r - 1 ∧ alphaIter (primEntry prim r) r i = x := by
  have pos : x.toNat ≠ 0 := fun zero => nonzero (BitVec.eq_of_toNat_eq zero)
  obtain ⟨i, hi, hi', power⟩ :=
    Primitive.exists_power h (Nat.one_le_of_lt lower) (Nat.one_le_iff_ne_zero.mpr pos) (Nat.le_sub_one_of_lt hx)
  exact ⟨i, hi, hi', BitVec.eq_of_toNat_eq ((h.alphaIter_toNat lower upper i).trans power)⟩

/-- The case split of the field laws: a symbol is 0 or a power of alpha. -/
theorem PrimAt.zero_or_power {x : Elem} (hx : x.toNat < 2 ^ r) :
    x = 0 ∨ ∃ i, alphaIter (primEntry prim r) r i = x := by
  by_cases zero : x = 0
  · exact .inl zero
  · obtain ⟨i, -, -, power⟩ := h.exists_alphaIter lower upper zero hx
    exact .inr ⟨i, power⟩

theorem PrimAt.expAt_fieldBuild (i : Nat) :
    expAt (fieldBuild prim r) i = .ok (alphaIter (primEntry prim r) r i) := by
  obtain ⟨-, -, -, exp, -⟩ := fieldBuild_spec prim r
  have order : 2 ^ 1 < 2 ^ r := Nat.pow_lt_pow_right (by decide) lower
  have index : i % (2 ^ r - 1) < 2 ^ r - 1 := Nat.mod_lt _ (by omega)
  rw [expAt_eq_ok, fieldBuild_r, exp _ (by omega), h.alphaIter_mod lower upper]

/-- LOG holds exponents up to 2^r - 1 in 16 bits. -/
theorem PrimAt.logAt_fieldBuild {i : Nat} (pos : 1 ≤ i) (le : i ≤ 2 ^ r - 1) :
    logAt (fieldBuild prim r) (alphaIter (primEntry prim r) r i) = .ok i := by
  have size : 2 ^ r ≤ 2 ^ 16 := Nat.pow_le_pow_right (by decide) upper
  refine logAt_eq_ok.mpr ⟨BitVec.ofNat 16 i, h.log_alphaIter lower upper pos le, ?_⟩
  rw [BitVec.toNat_ofNat, Nat.mod_eq_of_lt (by omega)]

/-- Mul adds exponents. -/
theorem PrimAt.mul_powers (i j : Nat) :
    mul (fieldBuild prim r) (alphaIter (primEntry prim r) r i) (alphaIter (primEntry prim r) r j) =
      .ok (alphaIter (primEntry prim r) r (i + j)) := by
  have hi := h.alphaIter_ne_zero lower upper i
  have hj := h.alphaIter_ne_zero lower upper j
  obtain ⟨k, hk, hk', eqI⟩ := h.exists_alphaIter lower upper hi (h.alphaIter_lt lower upper i)
  obtain ⟨l, hl, hl', eqJ⟩ := h.exists_alphaIter lower upper hj (h.alphaIter_lt lower upper j)
  refine mul_eq_ok.mpr (.inr ⟨hi, hj, k, l, ?_, ?_, ?_⟩)
  · rw [← eqI, h.logAt_fieldBuild lower upper hk hk']
  · rw [← eqJ, h.logAt_fieldBuild lower upper hl hl']
  · rw [h.expAt_fieldBuild lower upper, alphaIter_add_congr eqI eqJ]

/-- Mul by alpha^i makes i steps. -/
theorem PrimAt.mul_power_eq_iterate (i : Nat) {y : Elem} (hy : y.toNat < 2 ^ r) :
    ∃ v, mul (fieldBuild prim r) (alphaIter (primEntry prim r) r i) y = .ok v ∧
      v.toNat = (stepNat (primEntry prim r).toNat r)^[i] y.toNat := by
  obtain rfl | ⟨j, rfl⟩ := h.zero_or_power lower upper hy
  · exact ⟨0, mul_zero_operand (.inr rfl), (stepNat_xorLinear.iterate i).map_zero.symm⟩
  · refine ⟨_, h.mul_powers lower upper i j, ?_⟩
    rw [h.alphaIter_toNat lower upper, h.alphaIter_toNat lower upper, iterate_alphaPow]

theorem PrimAt.mul_comm {x y : Elem} (hx : x.toNat < 2 ^ r) (hy : y.toNat < 2 ^ r) :
    mul (fieldBuild prim r) x y = mul (fieldBuild prim r) y x := by
  obtain rfl | ⟨i, rfl⟩ := h.zero_or_power lower upper hx
  · rw [mul_zero_operand (.inl rfl), mul_zero_operand (.inr rfl)]
  obtain rfl | ⟨j, rfl⟩ := h.zero_or_power lower upper hy
  · rw [mul_zero_operand (.inr rfl), mul_zero_operand (.inl rfl)]
  · rw [h.mul_powers lower upper, h.mul_powers lower upper, Nat.add_comm]

/-- Mul answers for all symbols, stays in the field and has no zero divisors. -/
theorem PrimAt.mul_answers {x y : Elem} (hx : x.toNat < 2 ^ r) (hy : y.toNat < 2 ^ r) :
    ∃ v, mul (fieldBuild prim r) x y = .ok v ∧ v.toNat < 2 ^ r ∧ (v = 0 ↔ x = 0 ∨ y = 0) := by
  by_cases zero : x = 0 ∨ y = 0
  · exact ⟨0, mul_zero_operand zero, Nat.two_pow_pos r, iff_of_true rfl zero⟩
  · obtain ⟨nonzeroX, nonzeroY⟩ := not_or.mp zero
    obtain ⟨i, -, -, rfl⟩ := h.exists_alphaIter lower upper nonzeroX hx
    obtain ⟨j, -, -, rfl⟩ := h.exists_alphaIter lower upper nonzeroY hy
    exact ⟨_, h.mul_powers lower upper i j, h.alphaIter_lt lower upper _,
      iff_of_false (h.alphaIter_ne_zero lower upper _) zero⟩

theorem PrimAt.mul_assoc {x y z a b : Elem} (hx : x.toNat < 2 ^ r) (hy : y.toNat < 2 ^ r) (hz : z.toNat < 2 ^ r)
    (ha : mul (fieldBuild prim r) x y = .ok a) (hb : mul (fieldBuild prim r) y z = .ok b) :
    mul (fieldBuild prim r) a z = mul (fieldBuild prim r) x b := by
  have zeroLeft : ∀ w, mul (fieldBuild prim r) 0 w = .ok 0 := fun _ => mul_zero_operand (.inl rfl)
  have zeroRight : ∀ w, mul (fieldBuild prim r) w 0 = .ok 0 := fun _ => mul_zero_operand (.inr rfl)
  obtain rfl | ⟨i, rfl⟩ := h.zero_or_power lower upper hx
  · obtain rfl : 0 = a := Except.ok.inj ((zeroLeft _).symm.trans ha)
    rw [zeroLeft, zeroLeft]
  obtain rfl | ⟨j, rfl⟩ := h.zero_or_power lower upper hy
  · obtain rfl : 0 = a := Except.ok.inj ((zeroRight _).symm.trans ha)
    obtain rfl : 0 = b := Except.ok.inj ((zeroLeft _).symm.trans hb)
    rw [zeroLeft, zeroRight]
  obtain rfl | ⟨k, rfl⟩ := h.zero_or_power lower upper hz
  · obtain rfl : 0 = b := Except.ok.inj ((zeroRight _).symm.trans hb)
    rw [zeroRight, zeroRight]
  · obtain rfl := Except.ok.inj ((h.mul_powers lower upper i j).symm.trans ha)
    obtain rfl := Except.ok.inj ((h.mul_powers lower upper j k).symm.trans hb)
    rw [h.mul_powers lower upper, h.mul_powers lower upper, Nat.add_assoc]

theorem PrimAt.one_mul {x : Elem} (hx : x.toNat < 2 ^ r) : mul (fieldBuild prim r) 1 x = .ok x := by
  obtain rfl | ⟨i, rfl⟩ := h.zero_or_power lower upper hx
  · exact mul_zero_operand (.inr rfl)
  · have power := h.mul_powers lower upper 0 i
    rwa [Nat.zero_add] at power

theorem PrimAt.mul_one {x : Elem} (hx : x.toNat < 2 ^ r) : mul (fieldBuild prim r) x 1 = .ok x := by
  have one : (1 : Elem).toNat < 2 ^ r := h.alphaIter_lt lower upper 0
  rw [h.mul_comm lower upper hx one, h.one_mul lower upper hx]

/-- Mul is linear in its second operand, since every step is. -/
theorem PrimAt.mul_xor {x y z : Elem} (hx : x.toNat < 2 ^ r) (hy : y.toNat < 2 ^ r) (hz : z.toNat < 2 ^ r) :
    ∃ a b, mul (fieldBuild prim r) x y = .ok a ∧ mul (fieldBuild prim r) x z = .ok b ∧
      mul (fieldBuild prim r) x (y ^^^ z) = .ok (a ^^^ b) := by
  obtain rfl | ⟨i, rfl⟩ := h.zero_or_power lower upper hx
  · exact ⟨0, 0, mul_zero_operand (.inl rfl), mul_zero_operand (.inl rfl), mul_zero_operand (.inl rfl)⟩
  · have hyz : (y ^^^ z).toNat < 2 ^ r := by
      rw [BitVec.toNat_xor]
      exact Nat.xor_lt_two_pow hy hz
    obtain ⟨a, ha, stepsY⟩ := h.mul_power_eq_iterate lower upper i hy
    obtain ⟨b, hb, stepsZ⟩ := h.mul_power_eq_iterate lower upper i hz
    obtain ⟨c, hc, stepsYZ⟩ := h.mul_power_eq_iterate lower upper i hyz
    obtain rfl : c = a ^^^ b := by
      apply BitVec.eq_of_toNat_eq
      rw [stepsYZ, BitVec.toNat_xor, BitVec.toNat_xor, stepNat_xorLinear.iterate, stepsY, stepsZ]
    exact ⟨a, b, ha, hb, hc⟩

/-- The table product is the carry-less product modulo PRIM[r]: for a power of alpha both make its steps. -/
theorem PrimAt.mul_eq_reduceNat {x y : Elem} (hx : x.toNat < 2 ^ r) (hy : y.toNat < 2 ^ r) :
    ∃ v, mul (fieldBuild prim r) x y = .ok v ∧
      v.toNat = reduceNat (primEntry prim r).toNat r (clmul x.toNat y.toNat) := by
  have order : 1 ≤ r := Nat.one_le_of_lt lower
  obtain rfl | ⟨i, rfl⟩ := h.zero_or_power lower upper hx
  · have zero : (0 : Elem).toNat = 0 := rfl
    refine ⟨0, mul_zero_operand (.inl rfl), ?_⟩
    rw [reduceNat_eq_value order h.top h.degree (clmul_lt hx hy), zero, zero_clmul, valueAtAlpha_zero]
  · obtain ⟨v, hv, steps⟩ := h.mul_power_eq_iterate lower upper i hy
    refine ⟨v, hv, ?_⟩
    rw [steps, h.alphaIter_toNat lower upper, reduceNat_clmul_alphaPow order h.top h.degree upper i hy]

end FieldEngine

/-- Settles O24: EXP holds the powers of alpha and LOG their exponents, which list the non-zero symbols. -/
theorem fieldBuildFillsBothTables : Obligations.FieldBuildFillsBothTables := by
  intro prim r lower upper h
  obtain ⟨order, expLength, logLength, exp, log⟩ := fieldBuild_spec prim r
  have size : 2 ^ r ≤ 2 ^ 16 := Nat.pow_le_pow_right (by decide) upper
  have pos : 2 ^ 1 < 2 ^ r := Nat.pow_lt_pow_right (by decide) lower
  have last : (fieldBuild prim r).exp[2 ^ r - 1]? = some 1 := by
    rw [exp _ (by omega), h.alphaIter_period lower upper]
  refine ⟨order, expLength, logLength, fun i hi => ?_, exp 0 (by omega), last, fun x low high => ?_, ?_, ?_⟩
  · exact ⟨_, exp i hi, h.alphaIter_toNat lower upper i, h.one_le_alphaIter lower upper i,
      Nat.le_sub_one_of_lt (h.alphaIter_lt lower upper i)⟩
  · have nonzero : x ≠ 0 := by rintro rfl; exact absurd low (by decide)
    obtain ⟨i, hi, hi', rfl⟩ := h.exists_alphaIter lower upper nonzero (by omega)
    have notLast : i ≠ 2 ^ r - 1 := by
      rintro rfl
      rw [h.alphaIter_period lower upper] at low
      exact absurd low (by decide)
    refine ⟨BitVec.ofNat 16 i, h.log_alphaIter lower upper hi hi', ?_⟩
    rw [BitVec.toNat_ofNat, Nat.mod_eq_of_lt (by omega)]
    exact ⟨hi, by omega, exp i (by omega)⟩
  · have logOne := h.log_alphaIter lower upper (i := 2 ^ r - 1) (by omega) le_rfl
    rwa [h.alphaIter_period lower upper] at logOne
  · rw [log 0 (by omega), lastProduced_of_never]
    exact fun i => Nat.ne_of_gt (h.one_le_alphaIter lower upper i)

/-- Settles O26: Exp undoes Log, reduces its exponent modulo 2^r - 1, and Mul is symmetric with 0 guarded. -/
theorem fieldEngineProperties : Obligations.FieldEngineProperties := by
  intro prim r lower upper h
  refine ⟨fun x nonzero hx => ?_, fun i => ?_, fun x y hx hy => ?_⟩
  · obtain ⟨i, hi, hi', rfl⟩ := h.exists_alphaIter lower upper nonzero hx
    exact ⟨i, h.logAt_fieldBuild lower upper hi hi', h.expAt_fieldBuild lower upper i⟩
  · rw [expAt, expAt, fieldBuild_r, Nat.add_mod_right]
  · exact ⟨mul_zero_operand (.inr rfl), mul_zero_operand (.inl rfl), h.mul_comm lower upper hx hy⟩

/-- Settles O27: Mul adds exponents modulo 2^r - 1. -/
theorem nonzeroElementsFormGroup : Obligations.NonzeroElementsFormGroup := by
  intro prim r lower upper h
  refine ⟨fun _ _ hx hy => h.mul_answers lower upper hx hy,
    fun _ _ _ _ _ hx hy hz => h.mul_assoc lower upper hx hy hz,
    fun _ hx => ⟨h.one_mul lower upper hx, h.mul_one lower upper hx⟩, fun x nonzero hx => ?_⟩
  obtain ⟨i, hi, hi', rfl⟩ := h.exists_alphaIter lower upper nonzero hx
  refine ⟨i, _, h.logAt_fieldBuild lower upper hi hi', h.expAt_fieldBuild lower upper _, ?_⟩
  rw [h.mul_powers lower upper, Nat.add_sub_cancel' hi', h.alphaIter_period lower upper]

/-- Settles O28: multiplication by a power of alpha is linear. -/
theorem mulDistributesOverXor : Obligations.MulDistributesOverXor :=
  fun _ _ lower upper h _ _ _ hx hy hz => h.mul_xor lower upper hx hy hz

/-- Settles O29: reduction keeps the value at alpha, and the value of the carry-less product is the table product. -/
theorem mulIsPolynomialMultiplication : Obligations.MulIsPolynomialMultiplication :=
  fun _ _ lower upper h _ _ hx hy => h.mul_eq_reduceNat lower upper hx hy

/-! ### The commands over any state (R46 to R50) -/

/-- A command that reads the field context ends NoContext when FVALID = 0 (R14, R68). -/
theorem exec_noContext_of_readsField {i : Instr} {s : State} (reads : readsField i = true) (flag : s.fvalid = false) :
    exec i s = .next (answered s (failResponse .noContext)) := by
  cases i with
  | gfexp _ | gfmul _ _ | rdexp _ | rdlog _ => exact withField_invalid flag _
  | gfinit _ | encinit _ _ _ | encpar _ _ | rdgen _ => exact absurd reads Bool.false_ne_true

section Commands

variable {s : State} {v : Elem}

/-- The end of a command that answers the symbol its table rule computed. -/
theorem finish_symbol {x : Except Fault Elem} (hx : x = .ok v) :
    finish s (do let v ← x; return okResponse (v.setWidth 32) []) =
      .next (answered s (okResponse (v.setWidth 32) [])) := by
  rw [hx]
  rfl

variable (flag : s.fvalid = true)

include flag

theorem exec_gfexp_of_expAt {x : BitVec 32} (power : expAt s.field x.toNat = .ok v) :
    exec (.gfexp x) s = .next (answered s (okResponse (v.setWidth 32) [])) :=
  (withField_valid flag _).trans (finish_symbol power)

theorem exec_gfmul_of_mul {x y : Elem} (hx : x.toNat < 2 ^ s.field.r) (hy : y.toNat < 2 ^ s.field.r)
    (product : mul s.field x y = .ok v) :
    exec (.gfmul x y) s = .next (answered s (okResponse (v.setWidth 32) [])) := by
  have inRange : (isElem s.field x && isElem s.field y) = true :=
    Bool.and_eq_true_iff.mpr ⟨isElem_iff.mpr hx, isElem_iff.mpr hy⟩
  exact (withField_valid flag _).trans ((if_pos inRange).trans (finish_symbol product))

theorem exec_gfmul_of_range {x y : Elem} (range : 2 ^ s.field.r ≤ x.toNat ∨ 2 ^ s.field.r ≤ y.toNat) :
    exec (.gfmul x y) s = .next (answered s (failResponse .operandRange)) := by
  have outOfRange : ¬ (isElem s.field x && isElem s.field y) = true := by
    rw [Bool.and_eq_true, isElem_iff, isElem_iff]
    omega
  exact (withField_valid flag _).trans (if_neg outOfRange)

theorem exec_rdexp_of_entry {i : BitVec 32} (hi : i.toNat < 2 ^ s.field.r) (entry : s.field.exp[i.toNat]? = some v) :
    exec (.rdexp i) s = .next (answered s (okResponse (v.setWidth 32) [])) :=
  (withField_valid flag _).trans ((if_pos (expIndexOk_iff.mpr hi)).trans (finish_symbol (readEntry_eq_ok.mpr entry)))

theorem exec_rdexp_of_range {i : BitVec 32} (range : 2 ^ s.field.r ≤ i.toNat) :
    exec (.rdexp i) s = .next (answered s (failResponse .operandRange)) :=
  (withField_valid flag _).trans (if_neg (mt expIndexOk_iff.mp range.not_gt))

/-- x is below 2^16 where R is at most 16, so that its low 16 bits are the whole of it. -/
theorem exec_rdlog_of_entry {x : BitVec 32} {l : LogValue} (upper : s.field.r ≤ rMax) (nonzero : x ≠ 0)
    (hx : x.toNat < 2 ^ s.field.r) (entry : s.field.log[x.toNat]? = some (some l)) :
    exec (.rdlog x) s = .next (answered s (okResponse (l.setWidth 32) [])) := by
  have size : 2 ^ s.field.r ≤ 2 ^ 16 := Nat.pow_le_pow_right (by decide) upper
  have whole : (x.setWidth 16).toNat = x.toNat := by
    rw [BitVec.toNat_setWidth, Nat.mod_eq_of_lt (hx.trans_le size)]
  have inRange : logIndexOk s.field x = true :=
    logIndexOk_iff.mpr ⟨fun zero => nonzero (BitVec.eq_of_toNat_eq zero), hx⟩
  have read : logAt s.field (x.setWidth 16) = .ok l.toNat := logAt_eq_ok.mpr ⟨l, whole.symm ▸ entry, rfl⟩
  refine (withField_valid flag _).trans ((if_pos inRange).trans ?_)
  rw [read, ← BitVec.ofNat_toNat]
  rfl

theorem exec_rdlog_of_range {x : BitVec 32} (range : x = 0 ∨ 2 ^ s.field.r ≤ x.toNat) :
    exec (.rdlog x) s = .next (answered s (failResponse .operandRange)) := by
  have outOfRange : ¬ logIndexOk s.field x = true := by
    rw [logIndexOk_iff]
    rintro ⟨nonzero, small⟩
    obtain rfl | large := range
    · exact nonzero rfl
    · exact large.not_gt small
  exact (withField_valid flag _).trans (if_neg outOfRange)

end Commands

/-- Settles O30: the check of r is the only branch of GFINIT. -/
theorem gfinitBuildsFieldContext : Obligations.GfinitBuildsFieldContext := by
  intro r s
  exact ⟨fun order => if_pos (orderOk_iff.mpr order), fun order => if_neg (mt orderOk_iff.mp order)⟩

/-- Settles O31: FVALID is tested first, then Exp reads the entry at the reduced exponent. -/
theorem gfexpReadsReducedIndex : Obligations.GfexpReadsReducedIndex :=
  fun _ _ =>
    ⟨exec_noContext_of_readsField rfl, fun _ flag entry => exec_gfexp_of_expAt flag (expAt_eq_ok.mpr entry)⟩

/-- Settles O33: FVALID, the operand range, the guard of Mul against 0, and the table rule, in that order. -/
theorem gfmulFollowsTableRule : Obligations.GfmulFollowsTableRule := by
  intro x y s
  refine ⟨exec_noContext_of_readsField rfl, fun flag range => exec_gfmul_of_range flag range,
    fun flag hx hy zero => exec_gfmul_of_mul flag hx hy (mul_zero_operand zero),
    fun lx ly v flag hx hy nonzeroX nonzeroY logX logY entry => ?_⟩
  have product : mul s.field x y = .ok v :=
    mul_eq_ok.mpr (.inr ⟨nonzeroX, nonzeroY, lx.toNat, ly.toNat, logAt_eq_ok.mpr ⟨lx, logX, rfl⟩,
      logAt_eq_ok.mpr ⟨ly, logY, rfl⟩, expAt_eq_ok.mpr entry⟩)
  exact exec_gfmul_of_mul flag hx hy product

/-- Settles O35: FVALID, the range of the index, and the raw entry, in that order. -/
theorem rdexpReadsRawTable : Obligations.RdexpReadsRawTable :=
  fun _ _ =>
    ⟨exec_noContext_of_readsField rfl, fun flag => exec_rdexp_of_range flag, fun _ flag => exec_rdexp_of_entry flag⟩

/-- Settles O37: FVALID, the range of the operand, and the entry, in that order. -/
theorem rdlogReadsTable : Obligations.RdlogReadsTable :=
  fun _ _ upper =>
    ⟨exec_noContext_of_readsField rfl, fun flag => exec_rdlog_of_range flag,
      fun _ flag => exec_rdlog_of_entry flag upper⟩

/-! ### The commands in a ready field context (R67) -/

section Ready

variable {s : State} (ready : s.FieldReady)

include ready

/-- The port carries alpha^i as a number. -/
theorem State.FieldReady.power_on_port (i : Nat) :
    (alphaIter (primEntry s.cfg.prim s.field.r) s.field.r i).setWidth 32 =
      BitVec.ofNat 32 (alphaPow (primEntry s.cfg.prim s.field.r).toNat s.field.r i) := by
  rw [← BitVec.ofNat_toNat, ready.prim.alphaIter_toNat ready.valid.lower ready.valid.upper]

theorem State.FieldReady.expAt_field (i : Nat) :
    expAt s.field i = .ok (alphaIter (primEntry s.cfg.prim s.field.r) s.field.r i) := by
  have power := ready.prim.expAt_fieldBuild ready.valid.lower ready.valid.upper i
  rwa [← ready.valid.built] at power

theorem State.FieldReady.exp_entry {i : Nat} (hi : i < 2 ^ s.field.r) :
    s.field.exp[i]? = some (alphaIter (primEntry s.cfg.prim s.field.r) s.field.r i) := by
  obtain ⟨-, -, -, exp, -⟩ := fieldBuild_spec s.cfg.prim s.field.r
  have entry := exp i hi
  rwa [← ready.valid.built] at entry

theorem State.FieldReady.log_entry {i : Nat} (pos : 1 ≤ i) (le : i ≤ 2 ^ s.field.r - 1) :
    s.field.log[(alphaIter (primEntry s.cfg.prim s.field.r) s.field.r i).toNat]? =
      some (some (BitVec.ofNat 16 i)) := by
  have entry := ready.prim.log_alphaIter ready.valid.lower ready.valid.upper pos le
  rwa [← ready.valid.built] at entry

theorem State.FieldReady.mul_field {x y : Elem} (hx : x.toNat < 2 ^ s.field.r) (hy : y.toNat < 2 ^ s.field.r) :
    ∃ v, mul s.field x y = .ok v ∧
      v.toNat = reduceNat (primEntry s.cfg.prim s.field.r).toNat s.field.r (clmul x.toNat y.toNat) := by
  have answers := ready.prim.mul_eq_reduceNat ready.valid.lower ready.valid.upper hx hy
  rwa [← ready.valid.built] at answers

end Ready

/-- Settles O32: Exp holds alpha^x, which is the power at the reduced exponent. -/
theorem gfexpAnswersPowerOfAlpha : Obligations.GfexpAnswersPowerOfAlpha := by
  intro x s ready
  have runs := exec_gfexp_of_expAt ready.flag (ready.expAt_field x.toNat)
  rw [ready.power_on_port, ← Primitive.alphaPow_mod ready.prim] at runs
  exact ⟨runs, Nat.pos_of_ne_zero (alphaPow_ne_zero ready.prim.bottom _),
    Nat.le_sub_one_of_lt (alphaPow_lt (Nat.one_le_of_lt ready.valid.lower) ready.prim.top ready.prim.degree _)⟩

/-- Settles O34: Mul answers the polynomial product. -/
theorem gfmulAnswersPolynomialProduct : Obligations.GfmulAnswersPolynomialProduct := by
  intro x y s ready hx hy
  obtain ⟨v, product, value⟩ := ready.mul_field hx hy
  rw [exec_gfmul_of_mul ready.flag hx hy product, ← BitVec.ofNat_toNat, value]
  rfl

/-- Settles O36: EXP[i] is alpha^i, and alpha^(2^R - 1) is 1. -/
theorem rdexpAnswersPowerOfAlpha : Obligations.RdexpAnswersPowerOfAlpha := by
  intro i s ready hi
  have runs := exec_rdexp_of_entry ready.flag hi (ready.exp_entry hi)
  rw [ready.power_on_port] at runs
  refine ⟨runs, fun last => ?_⟩
  rw [last, ready.prim.period] at runs
  exact runs

/-- Settles O38: x is alpha^l for one l in [1, 2^R - 1], which LOG holds at x; for x = 1 it is 2^R - 1. -/
theorem rdlogAnswersDiscreteLogarithm : Obligations.RdlogAnswersDiscreteLogarithm := by
  intro x s ready nonzero hx
  have size : 2 ^ s.field.r ≤ 2 ^ 16 := Nat.pow_le_pow_right (by decide) ready.valid.upper
  have pos : 1 ≤ x.toNat := Nat.one_le_iff_ne_zero.mpr fun zero => nonzero (BitVec.eq_of_toNat_eq zero)
  obtain ⟨l, hl, hl', power⟩ :=
    Primitive.exists_power ready.prim (Nat.one_le_of_lt ready.valid.lower) pos (Nat.le_sub_one_of_lt hx)
  have entry := ready.log_entry hl hl'
  rw [ready.prim.alphaIter_toNat ready.valid.lower ready.valid.upper, power] at entry
  have runs := exec_rdlog_of_entry ready.flag ready.valid.upper nonzero hx entry
  rw [← BitVec.ofNat_toNat, BitVec.toNat_ofNat, Nat.mod_eq_of_lt (by omega)] at runs
  refine ⟨l, hl, hl', power, ?_, runs⟩
  rintro rfl
  exact Primitive.distinct_from_one ready.prim hl hl' (hl.trans hl') le_rfl (power.trans ready.prim.period.symm)

/-! ### Command words written out in the spec -/

/-- Settles O5: the legal words are the encodings of their commands, and each illegal word has one reason. -/
theorem specWordsDecodeAsWritten : Obligations.SpecWordsDecodeAsWritten :=
  ⟨decode_encode (.gfinit 3), decode_encode (.gfexp 36), decode_encode (.gfmul 512 2),
    decode_encode (.encinit 512 4 10), decode_encode (.encpar 3 [1, 2, 3]), decode_encode (.rdexp 7),
    decode_encode (.rdlog 5), decode_encode (.rdgen 4), rfl, rfl, rfl⟩

end Sys2Proof.Machine

/-! # Proofs about the generator builder (41_generator.md)

In coefficients, an outer step of GenBuild is a multiplication by (x + alpha^i), so that GEN is the product of its
roots. From that product follow its leading and constant coefficients, its zeros, and what RDGEN answers. -/

namespace Sys2Proof.Machine

/-! ### Tri (R54) -/

theorem two_mul_tri (i : Nat) : 2 * tri i = i * (i + 1) := Nat.two_mul_div_two_of_even (Nat.even_mul_succ_self i)

theorem tri_succ (i : Nat) : tri (i + 1) = (i + 1) + tri i := by
  have before := two_mul_tri i
  have after := two_mul_tri (i + 1)
  linarith

theorem tri_two_mul (s : Nat) : tri (2 * s) = s * (2 * s + 1) := by
  have double := two_mul_tri (2 * s)
  linarith

theorem tri_eq_sum (i : Nat) : tri i = (upTo 1 i).sum := by
  induction i with
  | zero => rfl
  | succ i ih =>
    rw [upTo_snoc (Nat.le_add_left 1 i), List.sum_append, ← ih, List.sum_singleton, tri_succ, Nat.add_comm]

/-- Settles O39: i * (i + 1) is even, and the next triangular number is i + 1 larger. -/
theorem triIsTriangularSum : Obligations.TriIsTriangularSum := fun i => ⟨two_mul_tri i, tri_eq_sum i⟩

/-! ### Sums of symbols -/

/-- The XOR of g(0), .., g(n - 1). -/
def xorSum (g : Nat → Elem) (n : Nat) : Elem := (List.range n).foldl (fun acc j => acc ^^^ g j) 0

/-- The term of x^j in the value of a polynomial at alpha^t (R56 (c)). -/
def termAtPower (f : FieldContext) (p : List Elem) (t j : Nat) : Elem := product f (p.getD j 0) (alphaElem f (t * j))

theorem evalAtPower_eq_xorSum (f : FieldContext) (p : List Elem) (t : Nat) :
    evalAtPower f p t = xorSum (termAtPower f p t) p.length := rfl

section XorSum

variable (g g' : Nat → Elem) (n : Nat)

theorem xorSum_succ : xorSum g (n + 1) = xorSum g n ^^^ g n := by
  rw [xorSum, List.range_succ, List.foldl_append]
  rfl

theorem xorSum_succ_first : xorSum g (n + 1) = g 0 ^^^ xorSum (fun j => g (j + 1)) n := by
  induction n with
  | zero => exact BitVec.xor_comm 0 (g 0)
  | succ n ih => rw [xorSum_succ, ih, xorSum_succ _ n, BitVec.xor_assoc]

theorem xorSum_xor : xorSum (fun j => g j ^^^ g' j) n = xorSum g n ^^^ xorSum g' n := by
  induction n with
  | zero => exact BitVec.xor_self.symm
  | succ n ih =>
    simp only [xorSum_succ, ih]
    ac_rfl

/-- A sum of symbols is a symbol. -/
theorem xorSum_lt {g : Nat → Elem} {r : Nat} (small : ∀ j, (g j).toNat < 2 ^ r) (n : Nat) :
    (xorSum g n).toNat < 2 ^ r := by
  induction n with
  | zero => exact Nat.two_pow_pos r
  | succ n ih =>
    rw [xorSum_succ, BitVec.toNat_xor]
    exact Nat.xor_lt_two_pow ih (small n)

end XorSum

/-! ### Products of symbols -/

section Product

variable {f : FieldContext} {x y v : Elem}

theorem product_eq_of_mul (answers : mul f x y = .ok v) : product f x y = v := by rw [product, answers, symbolOf]

theorem product_zero (f : FieldContext) (x : Elem) : product f x 0 = 0 :=
  product_eq_of_mul (mul_zero_operand (.inr rfl))

theorem zero_product (f : FieldContext) (x : Elem) : product f 0 x = 0 :=
  product_eq_of_mul (mul_zero_operand (.inl rfl))

theorem alphaElem_eq_of_expAt {i : Nat} (answers : expAt f i = .ok v) : alphaElem f i = v := by
  rw [alphaElem, answers, symbolOf]

end Product

/-- f is what FieldBuild(r) leaves over a primitive polynomial, for an order in [2, 16]. -/
structure BuiltField (prim : PrimTable) (r : Nat) (f : FieldContext) : Prop where
  lower : rMin ≤ r
  upper : r ≤ rMax
  built : f = fieldBuild prim r
  primitive : PrimAt prim r

theorem FieldValid.builtField {cfg : Config} {f : FieldContext} (valid : FieldValid cfg f)
    (prim : PrimAt cfg.prim f.r) : BuiltField cfg.prim f.r f :=
  ⟨valid.lower, valid.upper, valid.built, prim⟩

section BuiltField

variable {prim : PrimTable} {r : Nat} {f : FieldContext} (field : BuiltField prim r f)

include field

theorem BuiltField.expAt_eq_alphaIter (i : Nat) : expAt f i = .ok (alphaIter (primEntry prim r) r i) := by
  obtain ⟨lower, upper, rfl, h⟩ := field
  exact h.expAt_fieldBuild lower upper i

theorem BuiltField.alphaElem_eq_alphaIter (i : Nat) : alphaElem f i = alphaIter (primEntry prim r) r i :=
  alphaElem_eq_of_expAt (field.expAt_eq_alphaIter i)

theorem BuiltField.expAt_eq_alphaElem (i : Nat) : expAt f i = .ok (alphaElem f i) := by
  rw [field.alphaElem_eq_alphaIter, field.expAt_eq_alphaIter]

theorem BuiltField.alphaElem_zero : alphaElem f 0 = 1 := field.alphaElem_eq_alphaIter 0

theorem BuiltField.alphaElem_ne_zero (i : Nat) : alphaElem f i ≠ 0 := by
  rw [field.alphaElem_eq_alphaIter]
  exact field.primitive.alphaIter_ne_zero field.lower field.upper i

theorem BuiltField.alphaElem_lt (i : Nat) : (alphaElem f i).toNat < 2 ^ r := by
  rw [field.alphaElem_eq_alphaIter]
  exact field.primitive.alphaIter_lt field.lower field.upper i

/-- The powers 1 to 2^r - 1 are distinct. -/
theorem BuiltField.alphaElem_inj {i j : Nat} (hi : 1 ≤ i) (hi' : i ≤ 2 ^ r - 1) (hj : 1 ≤ j) (hj' : j ≤ 2 ^ r - 1)
    (same : alphaElem f i = alphaElem f j) : i = j := by
  have powers := congrArg BitVec.toNat same
  simp only [field.alphaElem_eq_alphaIter, field.primitive.alphaIter_toNat field.lower field.upper] at powers
  exact Primitive.distinct_from_one field.primitive hi hi' hj hj' powers

theorem BuiltField.product_alphaElem (i j : Nat) :
    product f (alphaElem f i) (alphaElem f j) = alphaElem f (i + j) := by
  simp only [field.alphaElem_eq_alphaIter]
  obtain ⟨lower, upper, rfl, h⟩ := field
  exact product_eq_of_mul (h.mul_powers lower upper i j)

section Symbols

variable {x y z : Elem} (hx : x.toNat < 2 ^ r) (hy : y.toNat < 2 ^ r)

include hx hy

theorem BuiltField.mul_eq_product : mul f x y = .ok (product f x y) := by
  obtain ⟨lower, upper, rfl, h⟩ := field
  obtain ⟨v, answers, -, -⟩ := h.mul_answers lower upper hx hy
  rw [product_eq_of_mul answers, answers]

theorem BuiltField.product_lt : (product f x y).toNat < 2 ^ r := by
  obtain ⟨lower, upper, rfl, h⟩ := field
  obtain ⟨v, answers, small, -⟩ := h.mul_answers lower upper hx hy
  rwa [product_eq_of_mul answers]

theorem BuiltField.product_comm : product f x y = product f y x := by
  obtain ⟨lower, upper, rfl, h⟩ := field
  exact congrArg symbolOf (h.mul_comm lower upper hx hy)

theorem BuiltField.product_assoc (hz : z.toNat < 2 ^ r) :
    product f (product f x y) z = product f x (product f y z) := by
  have answersXY := field.mul_eq_product hx hy
  have answersYZ := field.mul_eq_product hy hz
  obtain ⟨lower, upper, rfl, h⟩ := field
  exact congrArg symbolOf (h.mul_assoc lower upper hx hy hz answersXY answersYZ)

theorem BuiltField.product_xor (hz : z.toNat < 2 ^ r) :
    product f x (y ^^^ z) = product f x y ^^^ product f x z := by
  obtain ⟨lower, upper, rfl, h⟩ := field
  obtain ⟨a, b, answersY, answersZ, answers⟩ := h.mul_xor lower upper hx hy hz
  rw [product_eq_of_mul answersY, product_eq_of_mul answersZ, product_eq_of_mul answers]

theorem BuiltField.xor_product (hz : z.toNat < 2 ^ r) :
    product f (x ^^^ y) z = product f x z ^^^ product f y z := by
  have sum : (x ^^^ y).toNat < 2 ^ r := BitVec.toNat_xor x y ▸ Nat.xor_lt_two_pow hx hy
  rw [field.product_comm sum hz, field.product_xor hz hx hy, field.product_comm hz hx, field.product_comm hz hy]

end Symbols

/-- Multiplication by x takes a sum of symbols to the sum of the products. -/
theorem BuiltField.product_xorSum {x : Elem} (hx : x.toNat < 2 ^ r) {g : Nat → Elem}
    (small : ∀ j, (g j).toNat < 2 ^ r) (n : Nat) :
    product f x (xorSum g n) = xorSum (fun j => product f x (g j)) n := by
  induction n with
  | zero => exact product_zero _ _
  | succ n ih => rw [xorSum_succ, field.product_xor hx (xorSum_lt small n) (small n), ih, xorSum_succ]

end BuiltField

/-! ### Multiplication by (x + alpha^i), coefficient by coefficient (R56) -/

section Coefficients

variable (f : FieldContext) (i : Nat) (p : List Elem)

theorem mulRoot_length : (mulRoot f i p).length = p.length + 1 := by simp [mulRoot]

theorem getD_zipWith_xor {a b : List Elem} (sameLength : a.length = b.length) (k : Nat) :
    (List.zipWith (· ^^^ ·) a b).getD k 0 = a.getD k 0 ^^^ b.getD k 0 := by
  rcases Nat.lt_or_ge k a.length with inside | outside
  · have zipped : k < (List.zipWith (· ^^^ ·) a b).length := by
      rw [List.length_zipWith, ← sameLength, Nat.min_self]
      exact inside
    rw [List.getD_eq_getElem _ _ zipped, List.getElem_zipWith, List.getD_eq_getElem _ _ inside,
      List.getD_eq_getElem _ _ (sameLength ▸ inside)]
  · have zipped : (List.zipWith (· ^^^ ·) a b).length ≤ k := by
      rw [List.length_zipWith, ← sameLength, Nat.min_self]
      exact outside
    rw [List.getD_eq_default _ _ zipped, List.getD_eq_default _ _ outside,
      List.getD_eq_default _ _ (sameLength ▸ outside)]
    exact BitVec.xor_self.symm

theorem getD_append_zero (a : List Elem) (k : Nat) : (a ++ [0]).getD k 0 = a.getD k 0 := by
  rcases Nat.lt_or_ge k a.length with inside | outside
  · exact List.getD_append _ _ _ _ inside
  · rw [List.getD_append_right _ _ _ _ outside, List.getD_eq_default _ _ outside]
    cases k - a.length <;> rfl

theorem mulRoot_getD (k : Nat) :
    (mulRoot f i p).getD k 0 = (0 :: p).getD k 0 ^^^ product f (alphaElem f i) (p.getD k 0) := by
  have scaled := List.getD_map (f := product f (alphaElem f i)) (l := p) (d := 0) (n := k)
  rw [product_zero] at scaled
  rw [mulRoot, getD_zipWith_xor (by simp), getD_append_zero, scaled]

theorem mulRoot_getD_zero : (mulRoot f i p).getD 0 0 = product f (alphaElem f i) (p.getD 0 0) :=
  (mulRoot_getD f i p 0).trans BitVec.zero_xor

theorem mulRoot_getD_succ (j : Nat) :
    (mulRoot f i p).getD (j + 1) 0 = p.getD j 0 ^^^ product f (alphaElem f i) (p.getD (j + 1) 0) :=
  mulRoot_getD f i p (j + 1)

/-- Coefficient k reads the coefficients up to k alone. -/
theorem mulRoot_getD_congr {p q : List Elem} {k : Nat} (agree : ∀ j ≤ k, p.getD j 0 = q.getD j 0) :
    (mulRoot f i p).getD k 0 = (mulRoot f i q).getD k 0 := by
  cases k with
  | zero => rw [mulRoot_getD_zero, mulRoot_getD_zero, agree 0 le_rfl]
  | succ k => rw [mulRoot_getD_succ, mulRoot_getD_succ, agree k k.le_succ, agree (k + 1) le_rfl]

theorem rootProduct_length (n : Nat) : (rootProduct f n).length = n + 1 := by
  induction n with
  | zero => rfl
  | succ n ih => rw [rootProduct, mulRoot_length, ih]

/-- The table of the product holds its coefficients up to the degree n. -/
theorem rootProduct_getElem? {n j : Nat} (hj : j ≤ n) : (rootProduct f n)[j]? = some ((rootProduct f n).getD j 0) := by
  have inside : j < (rootProduct f n).length := by
    rw [rootProduct_length]
    omega
  rw [List.getD_eq_getElem _ _ inside, List.getElem?_eq_getElem inside]

theorem rootProduct_getD_above {n j : Nat} (above : n < j) : (rootProduct f n).getD j 0 = 0 :=
  List.getD_eq_default _ _ (by rw [rootProduct_length]; exact above)

/-- The product is monic (R56 (a)). -/
theorem rootProduct_getD_degree (n : Nat) : (rootProduct f n).getD n 0 = 1 := by
  induction n with
  | zero => rfl
  | succ n ih =>
    rw [rootProduct, mulRoot_getD_succ, ih, rootProduct_getD_above f n.lt_succ_self, product_zero]
    exact BitVec.xor_zero

end Coefficients

section RootProduct

variable {prim : PrimTable} {r : Nat} {f : FieldContext} (field : BuiltField prim r f)

include field

section Symbols

variable {p : List Elem} (small : ∀ j, (p.getD j 0).toNat < 2 ^ r) (i t : Nat)

include small

theorem BuiltField.mulRoot_getD_lt (j : Nat) : ((mulRoot f i p).getD j 0).toNat < 2 ^ r := by
  have root := field.alphaElem_lt i
  cases j with
  | zero =>
    rw [mulRoot_getD_zero]
    exact field.product_lt root (small 0)
  | succ j =>
    rw [mulRoot_getD_succ, BitVec.toNat_xor]
    exact Nat.xor_lt_two_pow (small j) (field.product_lt root (small (j + 1)))

theorem BuiltField.termAtPower_lt (j : Nat) : (termAtPower f p t j).toNat < 2 ^ r :=
  field.product_lt (small j) (field.alphaElem_lt (t * j))

theorem BuiltField.termAtPower_mulRoot_zero :
    termAtPower f (mulRoot f i p) t 0 = product f (alphaElem f i) (termAtPower f p t 0) := by
  rw [termAtPower, mulRoot_getD_zero, termAtPower,
    field.product_assoc (field.alphaElem_lt i) (small 0) (field.alphaElem_lt _)]

theorem BuiltField.termAtPower_mulRoot_succ (j : Nat) :
    termAtPower f (mulRoot f i p) t (j + 1) =
      product f (alphaElem f t) (termAtPower f p t j) ^^^ product f (alphaElem f i) (termAtPower f p t (j + 1)) := by
  have power := field.alphaElem_lt
  have shifted : product f (alphaElem f t) (termAtPower f p t j) =
      product f (p.getD j 0) (alphaElem f (t * (j + 1))) := by
    rw [field.product_comm (power t) (field.termAtPower_lt small t j), termAtPower,
      field.product_assoc (small j) (power _) (power t), field.product_alphaElem, Nat.mul_succ]
  rw [shifted, termAtPower, mulRoot_getD_succ,
    field.xor_product (small j) (field.product_lt (power i) (small _)) (power _),
    field.product_assoc (power i) (small _) (power _), termAtPower]

/-- The value at alpha^t of (x + alpha^i) * p is (alpha^t + alpha^i) times the value of p. -/
theorem BuiltField.evalAtPower_mulRoot :
    evalAtPower f (mulRoot f i p) t =
      product f (alphaElem f t) (evalAtPower f p t) ^^^ product f (alphaElem f i) (evalAtPower f p t) := by
  have term := field.termAtPower_lt small t
  have beyond : termAtPower f p t p.length = 0 := by
    rw [termAtPower, List.getD_eq_default _ _ le_rfl, zero_product]
  have scaled : product f (alphaElem f i) (evalAtPower f p t) =
      xorSum (fun j => product f (alphaElem f i) (termAtPower f p t j)) (p.length + 1) := by
    rw [xorSum_succ, beyond, product_zero, evalAtPower_eq_xorSum, field.product_xorSum (field.alphaElem_lt i) term]
    exact BitVec.xor_zero.symm
  rw [evalAtPower_eq_xorSum, mulRoot_length, xorSum_succ_first, field.termAtPower_mulRoot_zero small,
    funext (field.termAtPower_mulRoot_succ small i t), xorSum_xor, scaled, xorSum_succ_first, evalAtPower_eq_xorSum,
    field.product_xorSum (field.alphaElem_lt t) term]
  ac_rfl

end Symbols

theorem BuiltField.rootProduct_getD_lt (n j : Nat) : ((rootProduct f n).getD j 0).toNat < 2 ^ r := by
  induction n generalizing j with
  | zero =>
    cases j with
    | zero => exact Nat.one_lt_two_pow (Nat.ne_zero_of_lt field.lower)
    | succ j => exact Nat.two_pow_pos r
  | succ n ih => exact field.mulRoot_getD_lt ih (n + 1) j

/-- The constant coefficient is the product of the roots, whose exponents add up to Tri(n) (R56 (b)). -/
theorem BuiltField.rootProduct_getD_zero (n : Nat) : (rootProduct f n).getD 0 0 = alphaElem f (tri n) := by
  induction n with
  | zero => exact field.alphaElem_zero.symm
  | succ n ih => rw [rootProduct, mulRoot_getD_zero, ih, field.product_alphaElem, tri_succ]

/-- The product vanishes at each of its roots (R56 (c)). -/
theorem BuiltField.evalAtPower_rootProduct {n t : Nat} (pos : 1 ≤ t) (le : t ≤ n) :
    evalAtPower f (rootProduct f n) t = 0 := by
  induction n with
  | zero => omega
  | succ n ih =>
    rw [rootProduct, field.evalAtPower_mulRoot (field.rootProduct_getD_lt n)]
    rcases Nat.eq_or_lt_of_le le with rfl | lt
    · exact BitVec.xor_self
    · rw [ih (Nat.le_of_lt_succ lt), product_zero, product_zero]
      exact BitVec.xor_self

end RootProduct

/-! ### GenBuild (R55) -/

theorem getD_set {gen : List Elem} {i : Nat} (hi : i < gen.length) (v : Elem) (j : Nat) :
    (gen.set i v).getD j 0 = if j = i then v else gen.getD j 0 := by
  rw [List.getD_eq_getElem?_getD, List.getD_eq_getElem?_getD]
  split
  · next same => rw [same, List.getElem?_set_self hi, Option.getD_some]
  · next other => rw [List.getElem?_set_ne (Ne.symm other)]

theorem readEntry_of_lt {gen : List Elem} {i : Nat} (hi : i < gen.length) : readEntry gen i = .ok (gen.getD i 0) := by
  rw [readEntry_eq_ok, List.getD_eq_getElem _ _ hi, List.getElem?_eq_getElem hi]

theorem writeEntry_of_lt {gen : List Elem} {i : Nat} (hi : i < gen.length) (v : Elem) :
    writeEntry gen i v = .ok (gen.set i v) := writeEntry_eq_ok.mpr ⟨hi, rfl⟩

/-- The entries of `gen` from 1 to n are those of (x + alpha^i) * `gen`, and the others as before. -/
def ScaledUpTo (f : FieldContext) (i n : Nat) (gen gen' : List Elem) : Prop :=
  ∀ j, gen'.getD j 0 = if 1 ≤ j ∧ j ≤ n then (mulRoot f i gen).getD j 0 else gen.getD j 0

section GenBuild

variable {prim : PrimTable} {r : Nat} {f : FieldContext} (field : BuiltField prim r f) {gen : List Elem} {i n : Nat}

include field

/-- The body of the inner loop writes one coefficient of (x + alpha^i) * `gen`. -/
theorem BuiltField.genInner_scales (small : ∀ j, (gen.getD j 0).toNat < 2 ^ r) (inside : n + 1 < gen.length) :
    ∃ gen', genInner f i gen (n + 1) = .ok gen' ∧ gen'.length = gen.length ∧
      ∀ j, gen'.getD j 0 = if j = n + 1 then (mulRoot f i gen).getD (n + 1) 0 else gen.getD j 0 := by
  have below := readEntry_of_lt (Nat.lt_of_succ_lt inside)
  have here := readEntry_of_lt inside
  have scaled := field.mul_eq_product (field.alphaElem_lt i) (small (n + 1))
  rw [mulRoot_getD_succ]
  exact ⟨_, bind_eq_ok.mpr ⟨_, below, bind_eq_ok.mpr ⟨_, here, bind_eq_ok.mpr ⟨_, field.expAt_eq_alphaElem i,
    bind_eq_ok.mpr ⟨_, scaled, writeEntry_of_lt inside _⟩⟩⟩⟩, List.length_set, getD_set inside _⟩

/-- Going downward, the inner loop reads each entry before it writes it (R78). -/
theorem BuiltField.genLoop_scales (small : ∀ j, (gen.getD j 0).toNat < 2 ^ r) (inside : n < gen.length) :
    ∃ gen', (downTo n 1).foldlM (genInner f i) gen = .ok gen' ∧ gen'.length = gen.length ∧
      ScaledUpTo f i n gen gen' := by
  induction n generalizing gen with
  | zero => exact ⟨gen, rfl, rfl, fun j => (if_neg (by omega)).symm⟩
  | succ n ih =>
    obtain ⟨gen₁, writes, len₁, entry⟩ := field.genInner_scales (i := i) small inside
    have small₁ : ∀ j, (gen₁.getD j 0).toNat < 2 ^ r := by
      intro j
      rw [entry]
      split
      · exact field.mulRoot_getD_lt small i (n + 1)
      · exact small j
    obtain ⟨gen', runs, len, scaled⟩ := ih small₁ (by omega)
    refine ⟨gen', ?_, len.trans len₁, fun j => ?_⟩
    · rw [downTo_cons (Nat.le_add_left 1 n), List.foldlM_cons]
      exact bind_eq_ok.mpr ⟨gen₁, writes, runs⟩
    · rw [scaled j]
      rcases Nat.lt_trichotomy j (n + 1) with below | rfl | above
      · have agree : ∀ k ≤ j, gen₁.getD k 0 = gen.getD k 0 := fun k hk => by rw [entry, if_neg (by omega)]
        rw [mulRoot_getD_congr f i agree, agree j le_rfl]
        exact if_congr (by omega) rfl rfl
      · rw [if_neg (by omega), entry, if_pos rfl, if_pos ⟨Nat.le_add_left 1 n, le_rfl⟩]
      · rw [if_neg (by omega), entry, if_neg above.ne', if_neg (by omega)]

/-- One outer step turns the product of n roots into the product of n + 1: the inner loop leaves the leading
coefficient 1, and Tri gives the constant one (R79). -/
theorem BuiltField.genStep_multiplies (inside : n + 1 < gen.length)
    (before : ∀ j, gen.getD j 0 = (rootProduct f n).getD j 0) :
    ∃ gen', genStep f gen (n + 1) = .ok gen' ∧ gen'.length = gen.length ∧
      ∀ j, gen'.getD j 0 = (rootProduct f (n + 1)).getD j 0 := by
  have leading := getD_set inside 1
  have agree : ∀ j ≤ n, (gen.set (n + 1) 1).getD j 0 = (rootProduct f n).getD j 0 := fun j hj => by
    rw [leading, if_neg (by omega), before]
  have small : ∀ j, ((gen.set (n + 1) 1).getD j 0).toNat < 2 ^ r := by
    intro j
    rw [leading]
    split
    · exact Nat.one_lt_two_pow (Nat.ne_zero_of_lt field.lower)
    · exact before j ▸ field.rootProduct_getD_lt n j
  obtain ⟨scaledGen, runs, len, scaled⟩ :=
    field.genLoop_scales (i := n + 1) small (n := n) (by rw [List.length_set]; omega)
  rw [List.length_set] at len
  have first : 0 < scaledGen.length := by omega
  refine ⟨_, bind_eq_ok.mpr ⟨_, writeEntry_of_lt inside 1, bind_eq_ok.mpr ⟨_, runs, bind_eq_ok.mpr
    ⟨_, field.expAt_eq_alphaElem _, writeEntry_of_lt first _⟩⟩⟩, List.length_set.trans len, fun j => ?_⟩
  rw [getD_set first]
  split
  · next constant => rw [constant, field.rootProduct_getD_zero]
  · next nonconstant =>
    rw [scaled j]
    rcases Nat.lt_trichotomy j (n + 1) with below | rfl | above
    · rw [if_pos (by omega), mulRoot_getD_congr f (n + 1) fun k hk => agree k (by omega), rootProduct]
    · rw [if_neg (by omega), leading, if_pos rfl, rootProduct_getD_degree]
    · rw [if_neg (by omega), leading, if_neg above.ne', before, rootProduct_getD_above f (by omega),
        rootProduct_getD_above f above]

/-- After n outer steps the table holds the product of n roots, and 0 above it. -/
theorem BuiltField.genLoop_eq_rootProduct {s : Nat} (le : n ≤ 2 * s) :
    ∃ gen, (upTo 1 n).foldlM (genStep f) (genStart s) = .ok gen ∧ gen.length = 2 * s + 1 ∧
      ∀ j, gen.getD j 0 = (rootProduct f n).getD j 0 := by
  induction n with
  | zero =>
    refine ⟨genStart s, rfl, by simp [genStart], fun j => ?_⟩
    have blank : (List.replicate (2 * s + 1) (0 : Elem)).getD j 0 = 0 := by
      rw [List.getD_eq_getElem?_getD, List.getElem?_getD_replicate_default_eq]
    rw [genStart, getD_set (by simp), blank]
    cases j with
    | zero => rfl
    | succ j => rfl
  | succ n ih =>
    obtain ⟨gen, runs, len, before⟩ := ih (Nat.le_of_succ_le le)
    obtain ⟨gen', step, len', after⟩ := field.genStep_multiplies (by omega) before
    refine ⟨gen', ?_, len'.trans len, after⟩
    rw [upTo_snoc (Nat.le_add_left 1 n), List.foldlM_append]
    exact bind_eq_ok.mpr ⟨gen, runs, bind_eq_ok.mpr ⟨gen', step, rfl⟩⟩

theorem BuiltField.genBuild_eq_rootProduct (s : Nat) : genBuild f s = .ok (rootProduct f (2 * s)) := by
  obtain ⟨gen, runs, len, coefficients⟩ := field.genLoop_eq_rootProduct (Nat.le_refl (2 * s))
  obtain rfl : gen = rootProduct f (2 * s) := by
    refine List.ext_getElem (len.trans (rootProduct_length f _).symm) fun j hj hj' => ?_
    rw [← List.getD_eq_getElem _ 0 hj, ← List.getD_eq_getElem _ 0 hj', coefficients]
  exact runs

end GenBuild

/-- Settles O40: each outer step multiplies by one more root. -/
theorem genBuildIsProductOfRoots : Obligations.GenBuildIsProductOfRoots := by
  intro prim r s lower upper h _
  exact (BuiltField.mk lower upper rfl h).genBuild_eq_rootProduct s

/-- GEN, where GenBuild answers it, is the product of roots. -/
theorem BuiltField.eq_rootProduct_of_genBuild {prim : PrimTable} {r s : Nat} {f : FieldContext} {gen : List Elem}
    (field : BuiltField prim r f) (answers : genBuild f s = .ok gen) : gen = rootProduct f (2 * s) :=
  Except.ok.inj (answers.symm.trans (field.genBuild_eq_rootProduct s))

/-- Settles O41: the product of roots is monic, and its constant coefficient is a power of alpha. -/
theorem generatorIsMonicWithKnownConstant : Obligations.GeneratorIsMonicWithKnownConstant := by
  intro prim r s gen lower upper h _ answers
  have field := BuiltField.mk lower upper rfl h
  obtain rfl := field.eq_rootProduct_of_genBuild answers
  have constant := rootProduct_getElem? (fieldBuild prim r) (Nat.zero_le (2 * s))
  have leading := rootProduct_getElem? (fieldBuild prim r) (Nat.le_refl (2 * s))
  rw [field.rootProduct_getD_zero] at constant
  rw [rootProduct_getD_degree] at leading
  refine ⟨rootProduct_length _ _, fun x hx => ?_, leading, _, constant, field.alphaElem_ne_zero _,
    field.expAt_eq_alphaElem _, ?_⟩
  · obtain ⟨j, hj, rfl⟩ := List.mem_iff_getElem.mp hx
    exact List.getD_eq_getElem _ 0 hj ▸ field.rootProduct_getD_lt (2 * s) j
  · rw [← tri_two_mul, field.expAt_eq_alphaElem]

/-- Settles O42: the factor (x + alpha^t) vanishes at alpha^t, and with it the product. -/
theorem generatorVanishesAtItsRoots : Obligations.GeneratorVanishesAtItsRoots := by
  intro prim r s t gen lower upper h _ answers pos le
  have field := BuiltField.mk lower upper rfl h
  rw [field.eq_rootProduct_of_genBuild answers]
  exact field.evalAtPower_rootProduct pos le

/-- Settles O43: the powers 1 to 2^r - 1 are distinct, and the next one, at the even exponent 2^r, is alpha again. -/
theorem rootsAreDistinctWithinBound : Obligations.RootsAreDistinctWithinBound := by
  intro prim r s lower upper h _
  have field := BuiltField.mk lower upper rfl h
  have order : 2 ^ 1 < 2 ^ r := Nat.pow_lt_pow_right (by decide) lower
  constructor
  · intro distinct
    by_contra beyond
    have even : 2 ∣ 2 ^ r := dvd_pow_self 2 (Nat.ne_zero_of_lt lower)
    refine distinct 1 (1 + (2 ^ r - 1)) le_rfl (by omega) (by omega) ?_
    rw [expAt, expAt, fieldBuild_r, Nat.add_mod_right]
  · intro bound i j hi hij hj same
    rw [field.expAt_eq_alphaElem, field.expAt_eq_alphaElem] at same
    exact hij.ne (field.alphaElem_inj hi (by omega) (by omega) (by omega) (Except.ok.inj same))

/-! ### RDGEN (R57) -/

/-- A command that reads the encoder context ends NoContext when EVALID = 0 (R18, R68). -/
theorem exec_noContext_of_readsEncoder {i : Instr} {s : State} (reads : readsEncoder i = true)
    (flag : s.evalid = false) : exec i s = .next (answered s (failResponse .noContext)) := by
  cases i with
  | encpar _ _ | rdgen _ => exact withEncoder_invalid flag _
  | gfinit _ | gfexp _ | gfmul _ _ | encinit _ _ _ | rdexp _ | rdlog _ => exact absurd reads Bool.false_ne_true

section Rdgen

variable {s : State} {j : BitVec 32} (flag : s.evalid = true)

include flag

theorem exec_rdgen_of_entry {v : Elem} (hj : j.toNat ≤ 2 * s.enc.s) (entry : s.enc.gen[j.toNat]? = some v) :
    exec (.rdgen j) s = .next (answered s (okResponse (v.setWidth 32) [])) :=
  (withEncoder_valid flag _).trans ((if_pos (genIndexOk_iff.mpr hj)).trans (finish_symbol (readEntry_eq_ok.mpr entry)))

theorem exec_rdgen_of_range (range : 2 * s.enc.s < j.toNat) :
    exec (.rdgen j) s = .next (answered s (failResponse .operandRange)) :=
  (withEncoder_valid flag _).trans (if_neg (mt genIndexOk_iff.mp range.not_ge))

end Rdgen

/-- Settles O44: EVALID, the range of the index, and the entry, in that order. -/
theorem rdgenReadsTable : Obligations.RdgenReadsTable :=
  fun _ _ =>
    ⟨exec_noContext_of_readsEncoder rfl, fun flag => exec_rdgen_of_range flag, fun _ flag => exec_rdgen_of_entry flag⟩

/-- Settles O45: GEN in a ready encoder context is the product of roots, which has 2S + 1 coefficients. -/
theorem rdgenAnswersCoefficient : Obligations.RdgenAnswersCoefficient := by
  intro j s ready hj
  have field := ready.field.valid.builtField ready.field.prim
  refine exec_rdgen_of_entry ready.flag hj ?_
  rw [field.eq_rootProduct_of_genBuild ready.valid.built]
  exact rootProduct_getElem? s.field hj

end Sys2Proof.Machine

/-! # Proofs about the parity encoder (42_encoder.md)

In coefficients, an outer step of ParityDivide adds the multiple of GEN that cancels the leading coefficient of BUF.
This is a linear map that changes neither the remainder on division by GEN nor the value at a root of GEN. From that
follow the properties of the parity. -/

namespace Sys2Proof.Machine

/-! ### ENCINIT (R58) -/

/-- The check of the configuration is the only branch of ENCINIT where GenBuild answers. -/
theorem exec_encinit_of_config {k sc : BitVec 16} {r : BitVec 5} {s : State} {gen : List Elem}
    (accepted : configOk s.cfg k sc r = true) (built : genBuild (fieldBuild s.cfg.prim r.toNat) sc.toNat = .ok gen) :
    exec (.encinit k sc r) s =
      .next (answered
        (s.installEncoder (fieldBuild s.cfg.prim r.toNat)
          { k := k.toNat, s := sc.toNat, n := k.toNat + 2 * sc.toNat, gen := gen })
        (okResponse 0 [])) := by
  show execEncinit k sc r s = _
  rw [execEncinit, if_pos accepted]
  dsimp only
  rw [built]
  rfl

/-- Settles O46: the accepted configurations are those of `configOk`, and GenBuild answers the product of roots. -/
theorem encinitBuildsBothContexts : Obligations.EncinitBuildsBothContexts := by
  intro k sc r s _
  refine ⟨fun accepted prim => ?_, fun refused => if_neg (mt configOk_iff.mp refused)⟩
  have config := configOk_iff.mpr accepted
  obtain ⟨⟨lower, upper⟩, -⟩ := accepted
  have field := BuiltField.mk lower upper rfl prim
  exact exec_encinit_of_config config (field.genBuild_eq_rootProduct sc.toNat)

/-! ### Polynomials as tables of coefficients -/

/-- The coefficient of x^d in x^k * p. -/
def shiftedCoeff (p : List Elem) (k d : Nat) : Elem := (List.replicate k 0 ++ p).getD d 0

section Coefficients

variable (p : List Elem) (k : Nat)

theorem shiftedCoeff_below {d : Nat} (below : d < k) : shiftedCoeff p k d = 0 := by
  have inside : d < (List.replicate k (0 : Elem)).length := by rwa [List.length_replicate]
  rw [shiftedCoeff, List.getD_append _ _ _ _ inside, List.getD_eq_getElem _ _ inside, List.getElem_replicate]

theorem shiftedCoeff_add (d : Nat) : shiftedCoeff p k (k + d) = p.getD d 0 := by
  rw [shiftedCoeff, List.getD_append_right _ _ _ _ (by simp), List.length_replicate, Nat.add_sub_cancel_left]

theorem shiftedCoeff_of_le {d : Nat} (le : k ≤ d) : shiftedCoeff p k d = p.getD (d - k) 0 := by
  rw [← shiftedCoeff_add p k, Nat.add_sub_cancel' le]

theorem getD_zeros (n d : Nat) : (List.replicate n (0 : Elem)).getD d 0 = 0 := by
  rw [List.getD_eq_getElem?_getD, List.getElem?_getD_replicate_default_eq]

theorem shiftedCoeff_zeros (n d : Nat) : shiftedCoeff (List.replicate n 0) k d = 0 := by
  rw [shiftedCoeff, List.replicate_append_replicate, getD_zeros]

variable {p} in
theorem shiftedCoeff_lt {r : Nat} (small : ∀ j, (p.getD j 0).toNat < 2 ^ r) (d : Nat) :
    (shiftedCoeff p k d).toNat < 2 ^ r := by
  rcases Nat.lt_or_ge d k with below | le
  · rw [shiftedCoeff_below p k below]
    exact Nat.two_pow_pos r
  · rw [shiftedCoeff_of_le p k le]
    exact small _

/-- Tables of the same length with the same coefficients are the same. -/
theorem eq_of_getD {p q : List Elem} (len : p.length = q.length) (same : ∀ d, p.getD d 0 = q.getD d 0) : p = q := by
  refine List.ext_getElem len fun d hp hq => ?_
  rw [← List.getD_eq_getElem _ 0 hp, ← List.getD_eq_getElem _ 0 hq, same]

theorem forall_mem_iff_getD {p : List Elem} {r : Nat} :
    (∀ x ∈ p, x.toNat < 2 ^ r) ↔ ∀ d, (p.getD d 0).toNat < 2 ^ r := by
  constructor
  · intro small d
    rcases Nat.lt_or_ge d p.length with inside | outside
    · rw [List.getD_eq_getElem _ _ inside]
      exact small _ (List.getElem_mem inside)
    · rw [List.getD_eq_default _ _ outside]
      exact Nat.two_pow_pos r
  · intro small x hx
    obtain ⟨d, hd, rfl⟩ := List.mem_iff_getElem.mp hx
    exact List.getD_eq_getElem _ 0 hd ▸ small d

theorem getD_map_product (f : FieldContext) (c : Elem) (p : List Elem) (d : Nat) :
    (p.map (product f c)).getD d 0 = product f c (p.getD d 0) := by
  have scaled := List.getD_map (f := product f c) (l := p) (d := 0) (n := d)
  rwa [product_zero] at scaled

end Coefficients

/-! ### The buffer before the division (R59) -/

/-- After t iterations BUF holds the shifted message up to its symbol t. -/
theorem placeSymbol_loop {e : EncoderContext} {m : List Elem} (total : e.n = e.k + 2 * e.s) (len : m.length = e.k)
    {t : Nat} (ht : t ≤ e.k) :
    ∃ buf, (List.range t).foldlM (placeSymbol e m) (List.replicate e.n 0) = .ok buf ∧ buf.length = e.n ∧
      ∀ d, buf.getD d 0 = if d < 2 * e.s + t then shiftedCoeff m (2 * e.s) d else 0 := by
  induction t with
  | zero =>
    refine ⟨_, rfl, List.length_replicate, fun d => ?_⟩
    rw [getD_zeros]
    split
    · next below => exact (shiftedCoeff_below m _ below).symm
    · rfl
  | succ t ih =>
    obtain ⟨buf, runs, bufLen, coefficients⟩ := ih (Nat.le_of_succ_le ht)
    have inside : 2 * e.s + t < buf.length := by omega
    have symbol := readEntry_of_lt (gen := m) (i := t) (by omega)
    refine ⟨buf.set (2 * e.s + t) (m.getD t 0), ?_, List.length_set.trans bufLen, fun d => ?_⟩
    · rw [List.range_succ, List.foldlM_append]
      exact bind_eq_ok.mpr ⟨buf, runs, bind_eq_ok.mpr
        ⟨_, bind_eq_ok.mpr ⟨_, symbol, writeEntry_of_lt inside _⟩, rfl⟩⟩
    · rw [getD_set inside, coefficients]
      split
      · next here => rw [here, if_pos (by omega), shiftedCoeff_add]
      · next other => exact if_congr (by omega) rfl rfl

theorem parityStart_eq {e : EncoderContext} {m : List Elem} (total : e.n = e.k + 2 * e.s) (len : m.length = e.k) :
    parityStart e m = .ok (List.replicate (2 * e.s) 0 ++ m) := by
  obtain ⟨buf, runs, bufLen, coefficients⟩ := placeSymbol_loop total len le_rfl
  have shiftedLen : (List.replicate (2 * e.s) 0 ++ m).length = 2 * e.s + e.k := by
    rw [List.length_append, List.length_replicate, len]
  obtain rfl : buf = List.replicate (2 * e.s) 0 ++ m := by
    refine eq_of_getD (by omega) fun d => ?_
    rw [coefficients]
    split
    · rfl
    · next beyond => exact (List.getD_eq_default _ _ (by omega)).symm
  exact runs

/-- Settles O47: the loop stores one symbol after the other above 2S zeros. -/
theorem bufferHoldsShiftedMessage : Obligations.BufferHoldsShiftedMessage :=
  fun _ _ total len => parityStart_eq total len

/-! ### One division step (R60) -/

section One

variable {prim : PrimTable} {r : Nat} {f : FieldContext} (field : BuiltField prim r f)

include field

theorem BuiltField.one_lt : (1 : Elem).toNat < 2 ^ r :=
  Nat.one_lt_two_pow (Nat.ne_zero_of_lt field.lower)

theorem BuiltField.product_one {x : Elem} (hx : x.toNat < 2 ^ r) : product f x 1 = x := by
  obtain ⟨lower, upper, rfl, h⟩ := field
  exact product_eq_of_mul (h.mul_one lower upper hx)

theorem BuiltField.one_product {x : Elem} (hx : x.toNat < 2 ^ r) : product f 1 x = x := by
  rw [field.product_comm field.one_lt hx, field.product_one hx]

end One

/-- BUF after the outer step i: the multiple BUF[i] * x^(i - 2S) * g is added to it. -/
def cancelAt (f : FieldContext) (e : EncoderContext) (b : Nat → Elem) (i : Nat) : Nat → Elem :=
  fun d => b d ^^^ product f (b i) (shiftedCoeff e.gen (i - 2 * e.s) d)

theorem EncoderValid.gen_eq {cfg : Config} {f : FieldContext} {e : EncoderContext} (valid : EncoderValid cfg f e)
    (field : BuiltField cfg.prim f.r f) : e.gen = rootProduct f (2 * e.s) :=
  field.eq_rootProduct_of_genBuild valid.built

section Division

variable {prim : PrimTable} {r : Nat} {f : FieldContext} {e : EncoderContext} (gen : e.gen = rootProduct f (2 * e.s))
  {b : Nat → Elem} {i d : Nat}

theorem cancelAt_of_zero (zero : b i = 0) : cancelAt f e b i = b := by
  funext d
  rw [cancelAt, zero, zero_product]
  exact BitVec.xor_zero

section Generator

include gen

theorem gen_length : e.gen.length = 2 * e.s + 1 := by rw [gen, rootProduct_length]

theorem cancelAt_above (le : 2 * e.s ≤ i) (above : i < d) : cancelAt f e b i d = b d := by
  have beyond : e.gen.getD (d - (i - 2 * e.s)) 0 = 0 :=
    List.getD_eq_default _ _ (by rw [gen_length gen]; omega)
  rw [cancelAt, shiftedCoeff_of_le _ _ (by omega), beyond, product_zero]
  exact BitVec.xor_zero

theorem gen_getD_lt (field : BuiltField prim r f) (j : Nat) : (e.gen.getD j 0).toNat < 2 ^ r :=
  gen ▸ field.rootProduct_getD_lt (2 * e.s) j

end Generator

section Field

variable (field : BuiltField prim r f) (small : ∀ j, (b j).toNat < 2 ^ r)

include gen field small

theorem BuiltField.cancelAt_self (le : 2 * e.s ≤ i) : cancelAt f e b i i = 0 := by
  have leading : e.gen.getD (i - (i - 2 * e.s)) 0 = 1 := by
    rw [Nat.sub_sub_self le, gen, rootProduct_getD_degree]
  rw [cancelAt, shiftedCoeff_of_le _ _ (Nat.sub_le i _), leading, field.product_one (small i)]
  exact BitVec.xor_self

theorem BuiltField.cancelAt_lt (j : Nat) : (cancelAt f e b i j).toNat < 2 ^ r := by
  rw [cancelAt, BitVec.toNat_xor]
  exact Nat.xor_lt_two_pow (small j) (field.product_lt (small i) (shiftedCoeff_lt _ (gen_getD_lt gen field) j))

end Field

end Division

section ParityStep

variable {prim : PrimTable} {r : Nat} {f : FieldContext} {e : EncoderContext} (field : BuiltField prim r f)
  (gen : e.gen = rootProduct f (2 * e.s)) {buf : List Elem} (small : ∀ j, (buf.getD j 0).toNat < 2 ^ r) {i : Nat}
  (le : 2 * e.s ≤ i) (inside : i < buf.length)

include field gen small le inside

/-- The first n iterations of the inner loop do the addition at the entries from i - n to i - 1. -/
theorem BuiltField.parityInner_loop {n : Nat} (hn : n ≤ 2 * e.s) :
    ∃ buf', (upTo 1 n).foldlM (parityInner f e i (buf.getD i 0)) buf = .ok buf' ∧ buf'.length = buf.length ∧
      ∀ d, buf'.getD d 0 = if i - n ≤ d ∧ d < i then cancelAt f e (buf.getD · 0) i d else buf.getD d 0 := by
  induction n with
  | zero => exact ⟨buf, rfl, rfl, fun d => (if_neg (by omega)).symm⟩
  | succ n ih =>
    obtain ⟨buf₁, runs, len, entries⟩ := ih (Nat.le_of_succ_le hn)
    have target : i - (n + 1) < buf₁.length := by omega
    have here := readEntry_of_lt target
    rw [entries, if_neg (by omega)] at here
    have factor := readEntry_of_lt (gen := e.gen) (i := 2 * e.s - (n + 1)) (by rw [gen_length gen]; omega)
    have multiple := field.mul_eq_product (small i) (gen_getD_lt gen field (2 * e.s - (n + 1)))
    have sum : buf.getD (i - (n + 1)) 0 ^^^ product f (buf.getD i 0) (e.gen.getD (2 * e.s - (n + 1)) 0) =
        cancelAt f e (buf.getD · 0) i (i - (n + 1)) := by
      rw [cancelAt, shiftedCoeff_of_le _ _ (by omega), show i - (n + 1) - (i - 2 * e.s) = 2 * e.s - (n + 1) by omega]
    refine ⟨buf₁.set (i - (n + 1)) (cancelAt f e (buf.getD · 0) i (i - (n + 1))), ?_, List.length_set.trans len,
      fun d => ?_⟩
    · rw [upTo_snoc (Nat.le_add_left 1 n), List.foldlM_append]
      exact bind_eq_ok.mpr ⟨buf₁, runs, bind_eq_ok.mpr ⟨_, bind_eq_ok.mpr ⟨_, here, bind_eq_ok.mpr ⟨_, factor,
        bind_eq_ok.mpr ⟨_, multiple, sum ▸ writeEntry_of_lt target _⟩⟩⟩, rfl⟩⟩
    · rw [getD_set target, entries]
      split
      · next same => rw [same, if_pos (by omega)]
      · next other => exact if_congr (by omega) rfl rfl

/-- The write of 0 at entry i is the addition there, since GEN is monic. -/
theorem BuiltField.parityStep_cancels :
    ∃ buf', parityStep f e buf i = .ok buf' ∧ buf'.length = buf.length ∧
      (buf'.getD · 0) = cancelAt f e (buf.getD · 0) i := by
  have leading := readEntry_of_lt inside
  by_cases zero : buf.getD i 0 = 0
  · exact ⟨buf, bind_eq_ok.mpr ⟨_, leading, if_pos zero⟩, rfl, (cancelAt_of_zero zero).symm⟩
  · obtain ⟨buf₁, runs, len, entries⟩ := field.parityInner_loop gen small le inside le_rfl
    have inside₁ : i < buf₁.length := by omega
    refine ⟨buf₁.set i 0, bind_eq_ok.mpr ⟨_, leading, (if_neg zero).trans
      (bind_eq_ok.mpr ⟨_, runs, writeEntry_of_lt inside₁ 0⟩)⟩, List.length_set.trans len, funext fun d => ?_⟩
    rw [getD_set inside₁, entries]
    rcases Nat.lt_trichotomy d i with below | rfl | above
    · rw [if_neg below.ne]
      split
      · rfl
      · next outside =>
        rw [cancelAt, shiftedCoeff_below _ _ (by omega), product_zero]
        exact BitVec.xor_zero.symm
    · rw [if_pos rfl, field.cancelAt_self gen small le]
    · rw [if_neg above.ne', if_neg (by omega), cancelAt_above gen le above]

end ParityStep

/-! ### The division (R60) -/

/-- BUF after the outer steps `is`. -/
def cancelAll (f : FieldContext) (e : EncoderContext) (b : Nat → Elem) (is : List Nat) : Nat → Elem :=
  is.foldl (cancelAt f e) b

/-- The coefficients that the division leaves of x^(2S) * m. -/
def parityCoeff (f : FieldContext) (e : EncoderContext) (m : List Elem) : Nat → Elem :=
  cancelAll f e (shiftedCoeff m (2 * e.s)) (downTo (e.n - 1) (2 * e.s))

theorem cancelAll_of_zeros (f : FieldContext) (e : EncoderContext) {b : Nat → Elem} {is : List Nat}
    (zeros : ∀ i ∈ is, b i = 0) : cancelAll f e b is = b := by
  induction is with
  | nil => rfl
  | cons i is ih =>
    rw [cancelAll, List.foldl_cons, cancelAt_of_zero (zeros i List.mem_cons_self)]
    exact ih fun j hj => zeros j (List.mem_cons_of_mem i hj)

section Loop

variable {prim : PrimTable} {r : Nat} {f : FieldContext} {e : EncoderContext} (field : BuiltField prim r f)
  (gen : e.gen = rootProduct f (2 * e.s))

include field gen

theorem BuiltField.parityLoop_cancels {buf : List Elem} (small : ∀ j, (buf.getD j 0).toNat < 2 ^ r) {is : List Nat}
    (inside : ∀ i ∈ is, 2 * e.s ≤ i ∧ i < buf.length) :
    ∃ buf', is.foldlM (parityStep f e) buf = .ok buf' ∧ buf'.length = buf.length ∧
      (buf'.getD · 0) = cancelAll f e (buf.getD · 0) is := by
  induction is generalizing buf with
  | nil => exact ⟨buf, rfl, rfl, rfl⟩
  | cons i is ih =>
    obtain ⟨le, lt⟩ := inside i List.mem_cons_self
    obtain ⟨buf₁, step, len₁, coefficients⟩ := field.parityStep_cancels gen small le lt
    have small₁ : ∀ j, (buf₁.getD j 0).toNat < 2 ^ r := fun j =>
      congrFun coefficients j ▸ field.cancelAt_lt gen small j
    obtain ⟨buf', runs, len, after⟩ := ih small₁ fun j hj => len₁ ▸ inside j (List.mem_cons_of_mem i hj)
    rw [List.foldlM_cons]
    exact ⟨buf', bind_eq_ok.mpr ⟨buf₁, step, runs⟩, len.trans len₁, by rw [after, coefficients]; rfl⟩

/-- Going downward, the loop leaves 0 at every degree from 2S up. -/
theorem BuiltField.cancelAll_downTo_eq_zero (pos : 1 ≤ e.s) {b : Nat → Elem} (small : ∀ j, (b j).toNat < 2 ^ r)
    {top : Nat} (above : ∀ d, top < d → b d = 0) {d : Nat} (hd : 2 * e.s ≤ d) :
    cancelAll f e b (downTo top (2 * e.s)) d = 0 := by
  induction top generalizing b with
  | zero =>
    rw [downTo, upTo_empty (by omega)]
    exact above d (by omega)
  | succ top ih =>
    rcases Nat.lt_or_ge (top + 1) (2 * e.s) with below | le
    · rw [downTo, upTo_empty below]
      exact above d (by omega)
    · rw [downTo_cons le]
      refine ih (field.cancelAt_lt gen small) fun j hj => ?_
      rcases Nat.eq_or_lt_of_le hj with rfl | beyond
      · exact field.cancelAt_self gen small le
      · rw [cancelAt_above gen le beyond, above j beyond]

end Loop

section ParityDivide

variable {cfg : Config} {f : FieldContext} {e : EncoderContext} {m : List Elem} (field : BuiltField cfg.prim f.r f)
  (valid : EncoderValid cfg f e) (len : m.length = e.k) (small : ∀ x ∈ m, x.toNat < 2 ^ f.r)

include valid in
/-- The degrees that the division visits. -/
theorem EncoderValid.mem_degrees {i : Nat} (hi : i ∈ downTo (e.n - 1) (2 * e.s)) :
    2 * e.s ≤ i ∧ i < e.k + 2 * e.s := by
  obtain ⟨le, top⟩ := mem_downTo.mp hi
  have total := valid.total
  have kPos := valid.kPos
  omega

include small in
theorem shifted_message_lt (k d : Nat) : (shiftedCoeff m k d).toNat < 2 ^ f.r :=
  shiftedCoeff_lt k (forall_mem_iff_getD.mp small) d

include field valid len small

theorem BuiltField.parityCoeff_eq_zero {d : Nat} (hd : 2 * e.s ≤ d) : parityCoeff f e m d = 0 := by
  refine field.cancelAll_downTo_eq_zero (valid.gen_eq field) valid.sPos (shifted_message_lt small _)
    (fun d hd => ?_) hd
  have total := valid.total
  exact List.getD_eq_default _ _ (by rw [List.length_append, List.length_replicate]; omega)

/-- ParityDivide answers the table of the coefficients that the division leaves. -/
theorem BuiltField.parityDivide_answers :
    ∃ p, parityDivide f e m = .ok p ∧ p.length = 2 * e.s ∧ ∀ d, p.getD d 0 = parityCoeff f e m d := by
  have total := valid.total
  have startLen : (List.replicate (2 * e.s) 0 ++ m).length = e.k + 2 * e.s := by
    rw [List.length_append, List.length_replicate, len, Nat.add_comm]
  obtain ⟨buf, runs, bufLen, coefficients⟩ :=
    field.parityLoop_cancels (valid.gen_eq field) (shifted_message_lt small (2 * e.s))
      fun i hi => startLen ▸ valid.mem_degrees hi
  have answers : parityDivide f e m = .ok (buf.take (2 * e.s)) :=
    bind_eq_ok.mpr ⟨_, parityStart_eq total len, bind_eq_ok.mpr ⟨buf, runs, rfl⟩⟩
  refine ⟨_, answers, parityDivide_length (by omega) answers, fun d => ?_⟩
  rcases Nat.lt_or_ge d (2 * e.s) with below | beyond
  · rw [List.getD_eq_getElem?_getD, List.getElem?_take_of_lt below, ← List.getD_eq_getElem?_getD]
    exact congrFun coefficients d
  · rw [List.getD_eq_default _ _ ((List.length_take_le _ _).trans beyond),
      field.parityCoeff_eq_zero valid len small beyond]

theorem BuiltField.parityDivide_eq_ok_iff {p : List Elem} :
    parityDivide f e m = .ok p ↔ p.length = 2 * e.s ∧ ∀ d, p.getD d 0 = parityCoeff f e m d := by
  obtain ⟨q, answers, qLen, qCoeff⟩ := field.parityDivide_answers valid len small
  rw [answers, Except.ok.injEq]
  constructor
  · rintro rfl
    exact ⟨qLen, qCoeff⟩
  · rintro ⟨pLen, pCoeff⟩
    exact eq_of_getD (qLen.trans pLen.symm) fun d => (qCoeff d).trans (pCoeff d).symm

end ParityDivide

/-! ### The parity is linear in the message (R62 (e)) -/

section Linear

variable {prim : PrimTable} {r : Nat} {f : FieldContext} {e : EncoderContext} (field : BuiltField prim r f)
  (gen : e.gen = rootProduct f (2 * e.s)) {b b' : Nat → Elem} (small : ∀ j, (b j).toNat < 2 ^ r)

include field gen small

theorem BuiltField.cancelAt_xor (small' : ∀ j, (b' j).toNat < 2 ^ r) (i : Nat) :
    cancelAt f e (fun d => b d ^^^ b' d) i = fun d => cancelAt f e b i d ^^^ cancelAt f e b' i d := by
  funext d
  have factor := shiftedCoeff_lt (i - 2 * e.s) (gen_getD_lt gen field) d
  rw [cancelAt, cancelAt, cancelAt, field.xor_product (small i) (small' i) factor]
  ac_rfl

theorem BuiltField.cancelAt_scale {c : Elem} (hc : c.toNat < 2 ^ r) (i : Nat) :
    cancelAt f e (fun d => product f c (b d)) i = fun d => product f c (cancelAt f e b i d) := by
  funext d
  have factor := shiftedCoeff_lt (i - 2 * e.s) (gen_getD_lt gen field) d
  rw [cancelAt, cancelAt, field.product_assoc hc (small i) factor,
    field.product_xor hc (small d) (field.product_lt (small i) factor)]

theorem BuiltField.cancelAll_xor (small' : ∀ j, (b' j).toNat < 2 ^ r) (is : List Nat) :
    cancelAll f e (fun d => b d ^^^ b' d) is = fun d => cancelAll f e b is d ^^^ cancelAll f e b' is d := by
  induction is generalizing b b' with
  | nil => rfl
  | cons i is ih =>
    rw [cancelAll, List.foldl_cons, field.cancelAt_xor gen small small']
    exact ih (field.cancelAt_lt gen small) (field.cancelAt_lt gen small')

theorem BuiltField.cancelAll_scale {c : Elem} (hc : c.toNat < 2 ^ r) (is : List Nat) :
    cancelAll f e (fun d => product f c (b d)) is = fun d => product f c (cancelAll f e b is d) := by
  induction is generalizing b with
  | nil => rfl
  | cons i is ih =>
    rw [cancelAll, List.foldl_cons, field.cancelAt_scale gen small hc]
    exact ih (field.cancelAt_lt gen small)

theorem BuiltField.cancelAll_lt (is : List Nat) (j : Nat) : (cancelAll f e b is j).toNat < 2 ^ r := by
  induction is generalizing b with
  | nil => exact small j
  | cons i is ih => exact ih (field.cancelAt_lt gen small)

end Linear

theorem shiftedCoeff_xor {m m' : List Elem} (sameLength : m.length = m'.length) (k : Nat) :
    shiftedCoeff (List.zipWith (· ^^^ ·) m m') k = fun d => shiftedCoeff m k d ^^^ shiftedCoeff m' k d := by
  funext d
  rcases Nat.lt_or_ge d k with below | le
  · simp only [shiftedCoeff_below _ _ below]
    exact BitVec.xor_self.symm
  · simp only [shiftedCoeff_of_le _ _ le, getD_zipWith_xor sameLength]

theorem shiftedCoeff_scale (f : FieldContext) (c : Elem) (m : List Elem) (k : Nat) :
    shiftedCoeff (m.map (product f c)) k = fun d => product f c (shiftedCoeff m k d) := by
  funext d
  rcases Nat.lt_or_ge d k with below | le
  · rw [shiftedCoeff_below _ _ below, shiftedCoeff_below _ _ below, product_zero]
  · rw [shiftedCoeff_of_le _ _ le, shiftedCoeff_of_le _ _ le, getD_map_product]

section Linear

variable {prim : PrimTable} {f : FieldContext} {e : EncoderContext} (field : BuiltField prim f.r f)
  (gen : e.gen = rootProduct f (2 * e.s)) {m m' : List Elem}

include field gen

theorem BuiltField.parityCoeff_lt (small : ∀ x ∈ m, x.toNat < 2 ^ f.r) (d : Nat) :
    (parityCoeff f e m d).toNat < 2 ^ f.r :=
  field.cancelAll_lt gen (shifted_message_lt small _) _ d

theorem BuiltField.parityCoeff_xor (sameLength : m.length = m'.length) (small : ∀ x ∈ m, x.toNat < 2 ^ f.r)
    (small' : ∀ x ∈ m', x.toNat < 2 ^ f.r) (d : Nat) :
    parityCoeff f e (List.zipWith (· ^^^ ·) m m') d = parityCoeff f e m d ^^^ parityCoeff f e m' d := by
  rw [parityCoeff, shiftedCoeff_xor sameLength,
    field.cancelAll_xor gen (shifted_message_lt small _) (shifted_message_lt small' _)]
  rfl

theorem BuiltField.parityCoeff_scale (small : ∀ x ∈ m, x.toNat < 2 ^ f.r) {c : Elem} (hc : c.toNat < 2 ^ f.r)
    (d : Nat) : parityCoeff f e (m.map (product f c)) d = product f c (parityCoeff f e m d) := by
  rw [parityCoeff, shiftedCoeff_scale, field.cancelAll_scale gen (shifted_message_lt small _) hc]
  rfl

end Linear

/-- Settles O51: each division step is linear, and so is the division. -/
theorem parityIsLinear : Obligations.ParityIsLinear := by
  intro cfg f e m m' p p' c fieldValid prim valid len len' small small' hc answers answers'
  have field := fieldValid.builtField prim
  have gen := valid.gen_eq field
  obtain ⟨pLen, pCoeff⟩ := (field.parityDivide_eq_ok_iff valid len small).mp answers
  obtain ⟨pLen', pCoeff'⟩ := (field.parityDivide_eq_ok_iff valid len' small').mp answers'
  have sumSmall : ∀ x ∈ List.zipWith (· ^^^ ·) m m', x.toNat < 2 ^ f.r := by
    refine forall_mem_iff_getD.mpr fun d => ?_
    rw [getD_zipWith_xor (len.trans len'.symm), BitVec.toNat_xor]
    exact Nat.xor_lt_two_pow (forall_mem_iff_getD.mp small d) (forall_mem_iff_getD.mp small' d)
  have scaledSmall : ∀ x ∈ m.map (product f c), x.toNat < 2 ^ f.r := by
    refine forall_mem_iff_getD.mpr fun d => ?_
    rw [getD_map_product]
    exact field.product_lt hc (forall_mem_iff_getD.mp small d)
  constructor
  · refine (field.parityDivide_eq_ok_iff valid (by simp [len, len']) sumSmall).mpr
      ⟨by simp [pLen, pLen'], fun d => ?_⟩
    rw [getD_zipWith_xor (pLen.trans pLen'.symm), pCoeff, pCoeff',
      field.parityCoeff_xor gen (len.trans len'.symm) small small']
  · refine (field.parityDivide_eq_ok_iff valid (by simp [len]) scaledSmall).mpr ⟨by simp [pLen], fun d => ?_⟩
    rw [getD_map_product, pCoeff, field.parityCoeff_scale gen small hc]

/-! ### The zero and the unit message (R62 (e)) -/

theorem downTo_snoc {a b : Nat} (h : b ≤ a) : downTo a b = downTo a (b + 1) ++ [b] := by
  rw [downTo, downTo, upTo, upTo, show a + 1 - b = a + 1 - (b + 1) + 1 by omega, List.range'_succ, List.reverse_cons]

/-- x^(2S) * 1 has the one coefficient 1. -/
theorem shiftedCoeff_unit (n k d : Nat) : shiftedCoeff (1 :: List.replicate n 0) k d = if d = k then 1 else 0 := by
  rcases Nat.lt_trichotomy d k with below | rfl | above
  · rw [shiftedCoeff_below _ _ below, if_neg below.ne]
  · exact (shiftedCoeff_add _ d 0).trans (if_pos rfl).symm
  · obtain ⟨j, rfl⟩ := Nat.exists_eq_add_of_lt above
    rw [if_neg (by omega), Nat.add_assoc, shiftedCoeff_add, List.getD_cons_succ, getD_zeros]

section Unit

variable {cfg : Config} {f : FieldContext} {e : EncoderContext} (field : BuiltField cfg.prim f.r f)
  (valid : EncoderValid cfg f e)

include field valid

/-- Of the division of x^(2S) only the last step does anything: it adds GEN. -/
theorem BuiltField.parityCoeff_unit {n d : Nat} (below : d < 2 * e.s) :
    parityCoeff f e (1 :: List.replicate n 0) d = e.gen.getD d 0 := by
  have degrees : 2 * e.s ≤ e.n - 1 := by
    have total := valid.total
    have kPos := valid.kPos
    omega
  have idle : cancelAll f e (shiftedCoeff (1 :: List.replicate n 0) (2 * e.s)) (downTo (e.n - 1) (2 * e.s + 1)) =
      shiftedCoeff (1 :: List.replicate n 0) (2 * e.s) := by
    refine cancelAll_of_zeros f e fun i hi => ?_
    obtain ⟨above, -⟩ := mem_downTo.mp hi
    rw [shiftedCoeff_unit, if_neg (by omega)]
  have last : parityCoeff f e (1 :: List.replicate n 0) =
      cancelAt f e (shiftedCoeff (1 :: List.replicate n 0) (2 * e.s)) (2 * e.s) := by
    rw [parityCoeff, downTo_snoc degrees, cancelAll, List.foldl_append]
    exact congrArg (cancelAt f e · (2 * e.s)) idle
  rw [last, cancelAt, shiftedCoeff_unit, shiftedCoeff_unit, if_pos rfl, if_neg below.ne, Nat.sub_self,
    shiftedCoeff_of_le _ _ (Nat.zero_le d), Nat.sub_zero,
    field.one_product (gen_getD_lt (valid.gen_eq field) field d)]
  exact BitVec.zero_xor

end Unit

/-- Settles O52: no step of the division of 0 does anything, and only the last one of the division of x^(2S). -/
theorem parityOfZeroAndUnitMessages : Obligations.ParityOfZeroAndUnitMessages := by
  intro cfg f e fieldValid prim valid
  have field := fieldValid.builtField prim
  have zeros : ∀ n, ∀ x ∈ List.replicate n (0 : Elem), x.toNat < 2 ^ f.r := fun n x hx =>
    List.eq_of_mem_replicate hx ▸ Nat.two_pow_pos f.r
  have unit : ∀ x ∈ 1 :: List.replicate (e.k - 1) (0 : Elem), x.toNat < 2 ^ f.r :=
    List.forall_mem_cons.mpr ⟨field.one_lt, zeros _⟩
  have unitLen : (1 :: List.replicate (e.k - 1) (0 : Elem)).length = e.k := by
    rw [List.length_cons, List.length_replicate, Nat.sub_add_cancel valid.kPos]
  constructor
  · refine (field.parityDivide_eq_ok_iff valid List.length_replicate (zeros _)).mpr
      ⟨List.length_replicate, fun d => ?_⟩
    rw [getD_zeros, parityCoeff, cancelAll_of_zeros f e fun i _ => shiftedCoeff_zeros _ e.k i]
    exact (shiftedCoeff_zeros _ _ d).symm
  · refine (field.parityDivide_eq_ok_iff valid unitLen unit).mpr ⟨?_, fun d => ?_⟩
    · rw [List.length_take, gen_length (valid.gen_eq field)]
      omega
    · rcases Nat.lt_or_ge d (2 * e.s) with below | beyond
      · rw [field.parityCoeff_unit valid below, List.getD_eq_getElem?_getD, List.getElem?_take_of_lt below,
          ← List.getD_eq_getElem?_getD]
      · rw [field.parityCoeff_eq_zero valid unitLen unit beyond,
          List.getD_eq_default _ _ ((List.length_take_le _ _).trans beyond)]

/-! ### ENCPAR over any state (R61) -/

section Encpar

variable {s : State} {len : BitVec 32} {m : List Elem} (flag : s.evalid = true)

include flag

theorem exec_encpar_of_length (wrong : len.toNat ≠ s.enc.k) :
    exec (.encpar len m) s = .next (answered s (failResponse .invalidArgument)) := by
  have bad : (!lengthOk s.enc len) = true := by
    rw [Bool.not_eq_true', ← Bool.not_eq_true, lengthOk_iff]
    exact wrong
  exact (withEncoder_valid flag _).trans (if_pos bad)

variable (right : len.toNat = s.enc.k)

include right

/-- With LEN = K the payload check is the next one. -/
theorem exec_encpar_of_right_length :
    exec (.encpar len m) s =
      if !messageOk s.field m then fail .operandRange s
      else
        finish s do
          let p ← parityDivide s.field s.enc m
          return okResponse (BitVec.ofNat 32 (2 * s.enc.s)) p := by
  have good : ¬ (!lengthOk s.enc len) = true := by
    rw [lengthOk_iff.mpr right]
    exact Bool.false_ne_true
  exact (withEncoder_valid flag _).trans (if_neg good)

theorem exec_encpar_of_range (range : ∃ x ∈ m, 2 ^ s.field.r ≤ x.toNat) :
    exec (.encpar len m) s = .next (answered s (failResponse .operandRange)) := by
  have bad : (!messageOk s.field m) = true := by
    rw [Bool.not_eq_true', ← Bool.not_eq_true, messageOk_iff]
    obtain ⟨x, hx, large⟩ := range
    exact fun small => large.not_gt (small x hx)
  exact (exec_encpar_of_right_length flag right).trans (if_pos bad)

theorem exec_encpar_of_parity {p : List Elem} (small : ∀ x ∈ m, x.toNat < 2 ^ s.field.r)
    (parity : parityDivide s.field s.enc m = .ok p) :
    exec (.encpar len m) s = .next (answered s (okResponse (BitVec.ofNat 32 (2 * s.enc.s)) p)) := by
  have good : ¬ (!messageOk s.field m) = true := by
    rw [messageOk_iff.mpr small]
    exact Bool.false_ne_true
  rw [exec_encpar_of_right_length flag right, if_neg good, parity]
  rfl

end Encpar

/-- Settles O48: EVALID, the length, the payload, and the division, in that order. -/
theorem encparChecksThenDivides : Obligations.EncparChecksThenDivides :=
  fun _ _ _ =>
    ⟨exec_noContext_of_readsEncoder rfl, fun flag => exec_encpar_of_length flag,
      fun flag right => exec_encpar_of_range flag right, fun _ flag right => exec_encpar_of_parity flag right⟩

/-! ### The codeword vanishes at the roots of GEN (R62 (d)) -/

theorem xorSum_add (g : Nat → Elem) (k n : Nat) :
    xorSum g (k + n) = xorSum g k ^^^ xorSum (fun j => g (k + j)) n := by
  induction n with
  | zero => exact BitVec.xor_zero.symm
  | succ n ih => rw [← Nat.add_assoc, xorSum_succ, ih, xorSum_succ, BitVec.xor_assoc]

theorem xorSum_zeros {g : Nat → Elem} {n : Nat} (zeros : ∀ j < n, g j = 0) : xorSum g n = 0 := by
  induction n with
  | zero => rfl
  | succ n ih =>
    rw [xorSum_succ, ih fun j hj => zeros j (Nat.lt_succ_of_lt hj), zeros n n.lt_succ_self]
    exact BitVec.xor_self

theorem xorSum_single (k n : Nat) (v : Elem) :
    xorSum (fun j => if j = k then v else 0) n = if k < n then v else 0 := by
  induction n with
  | zero => rfl
  | succ n ih =>
    rw [xorSum_succ, ih]
    rcases Nat.lt_trichotomy k n with below | rfl | above
    · rw [if_pos below, if_neg below.ne', if_pos (Nat.lt_succ_of_lt below)]
      exact BitVec.xor_zero
    · rw [if_neg (Nat.lt_irrefl k), if_pos rfl, if_pos k.lt_succ_self]
      exact BitVec.zero_xor
    · rw [if_neg above.not_gt, if_neg above.ne, if_neg (by omega)]
      exact BitVec.xor_self

/-- The value at alpha^t of the n coefficients b(0), .., b(n - 1). -/
def valueAtPower (f : FieldContext) (b : Nat → Elem) (t n : Nat) : Elem :=
  xorSum (fun d => product f (b d) (alphaElem f (t * d))) n

theorem evalAtPower_eq_valueAtPower (f : FieldContext) (p : List Elem) (t : Nat) :
    evalAtPower f p t = valueAtPower f (p.getD · 0) t p.length := rfl

/-- A table is the sum of its low part and the shifted rest. -/
theorem getD_append_eq_xor (p q : List Elem) (d : Nat) :
    (p ++ q).getD d 0 = p.getD d 0 ^^^ shiftedCoeff q p.length d := by
  rcases Nat.lt_or_ge d p.length with inside | beyond
  · rw [List.getD_append _ _ _ _ inside, shiftedCoeff_below _ _ inside]
    exact BitVec.xor_zero.symm
  · rw [List.getD_append_right _ _ _ _ beyond, shiftedCoeff_of_le _ _ beyond, List.getD_eq_default _ _ beyond]
    exact BitVec.zero_xor.symm

section Value

variable {prim : PrimTable} {r : Nat} {f : FieldContext} {e : EncoderContext} (field : BuiltField prim r f)
  {b b' : Nat → Elem} (small : ∀ j, (b j).toNat < 2 ^ r) {t n : Nat}

include field

include small in
theorem BuiltField.valueAtPower_xor (small' : ∀ j, (b' j).toNat < 2 ^ r) :
    valueAtPower f (fun d => b d ^^^ b' d) t n = valueAtPower f b t n ^^^ valueAtPower f b' t n := by
  have term : ∀ d, product f (b d ^^^ b' d) (alphaElem f (t * d)) =
      product f (b d) (alphaElem f (t * d)) ^^^ product f (b' d) (alphaElem f (t * d)) := fun d =>
    field.xor_product (small d) (small' d) (field.alphaElem_lt _)
  rw [valueAtPower, funext term, xorSum_xor]
  rfl

include small in
theorem BuiltField.valueAtPower_scale {c : Elem} (hc : c.toNat < 2 ^ r) :
    valueAtPower f (fun d => product f c (b d)) t n = product f c (valueAtPower f b t n) := by
  have power := field.alphaElem_lt
  rw [valueAtPower, valueAtPower, field.product_xorSum hc fun d => field.product_lt (small d) (power _)]
  exact congrArg (xorSum · n) (funext fun d => field.product_assoc hc (small d) (power _))

/-- The value of x^k * p is alpha^(t*k) times the value of p. -/
theorem BuiltField.valueAtPower_shiftedCoeff {p : List Elem} (small : ∀ j, (p.getD j 0).toNat < 2 ^ r) {k : Nat}
    (fits : k + p.length ≤ n) :
    valueAtPower f (shiftedCoeff p k) t n = product f (alphaElem f (t * k)) (evalAtPower f p t) := by
  obtain ⟨rest, rfl⟩ := Nat.exists_eq_add_of_le fits
  have power := field.alphaElem_lt
  have low : ∀ d < k, product f (shiftedCoeff p k d) (alphaElem f (t * d)) = 0 := fun d below => by
    rw [shiftedCoeff_below _ _ below, zero_product]
  have term : ∀ j, product f (shiftedCoeff p k (k + j)) (alphaElem f (t * (k + j))) =
      product f (alphaElem f (t * k)) (termAtPower f p t j) := fun j => by
    rw [shiftedCoeff_add, Nat.mul_add, Nat.add_comm (t * k), ← field.product_alphaElem,
      ← field.product_assoc (small j) (power _) (power _),
      field.product_comm (power (t * k)) (field.termAtPower_lt small t j), termAtPower]
  have high : ∀ j < rest, termAtPower f p t (p.length + j) = 0 := fun j _ => by
    rw [termAtPower, List.getD_eq_default _ _ (Nat.le_add_right _ j), zero_product]
  rw [valueAtPower, Nat.add_assoc, xorSum_add, xorSum_zeros low, funext term,
    ← field.product_xorSum (power _) (field.termAtPower_lt small t), xorSum_add, xorSum_zeros high,
    ← evalAtPower_eq_xorSum]
  exact BitVec.zero_xor.trans (congrArg (product f _) BitVec.xor_zero)

variable (gen : e.gen = rootProduct f (2 * e.s)) (pos : 1 ≤ t) (root : t ≤ 2 * e.s)

include small gen pos root

/-- Adding a multiple of GEN does not change the value at a root of GEN. -/
theorem BuiltField.valueAtPower_cancelAt {i : Nat} (le : 2 * e.s ≤ i) (inside : i < n) :
    valueAtPower f (cancelAt f e b i) t n = valueAtPower f b t n := by
  have coefficient := gen_getD_lt gen field
  have shifted := shiftedCoeff_lt (i - 2 * e.s) coefficient
  have vanishes : valueAtPower f (shiftedCoeff e.gen (i - 2 * e.s)) t n = 0 := by
    rw [field.valueAtPower_shiftedCoeff coefficient (by rw [gen_length gen]; omega), gen,
      field.evalAtPower_rootProduct pos root, product_zero]
  have sum := field.valueAtPower_xor (t := t) (n := n) small fun d => field.product_lt (small i) (shifted d)
  rw [field.valueAtPower_scale shifted (small i), vanishes, product_zero] at sum
  exact sum.trans BitVec.xor_zero

theorem BuiltField.valueAtPower_cancelAll {is : List Nat} (inside : ∀ i ∈ is, 2 * e.s ≤ i ∧ i < n) :
    valueAtPower f (cancelAll f e b is) t n = valueAtPower f b t n := by
  induction is generalizing b with
  | nil => rfl
  | cons i is ih =>
    obtain ⟨le, lt⟩ := inside i List.mem_cons_self
    exact (ih (field.cancelAt_lt gen small) fun j hj => inside j (List.mem_cons_of_mem i hj)).trans
      (field.valueAtPower_cancelAt small gen pos root le lt)

end Value

/-- Settles O50: the division keeps the value at a root of GEN, so that parity and shifted message have the same. -/
theorem codewordVanishesAtTheRoots : Obligations.CodewordVanishesAtTheRoots := by
  intro cfg f e m p t fieldValid prim valid len small answers pos root
  have field := fieldValid.builtField prim
  have gen := valid.gen_eq field
  obtain ⟨pLen, pCoeff⟩ := (field.parityDivide_eq_ok_iff valid len small).mp answers
  have shifted := shifted_message_lt small (2 * e.s)
  have sum : ∀ d, (p ++ m).getD d 0 = parityCoeff f e m d ^^^ shiftedCoeff m (2 * e.s) d := fun d => by
    rw [getD_append_eq_xor, pCoeff, pLen]
  have codeLen : (p ++ m).length = e.k + 2 * e.s := by rw [List.length_append, pLen, len, Nat.add_comm]
  have kept : valueAtPower f (parityCoeff f e m) t (e.k + 2 * e.s) =
      valueAtPower f (shiftedCoeff m (2 * e.s)) t (e.k + 2 * e.s) :=
    field.valueAtPower_cancelAll shifted gen pos root fun i hi => valid.mem_degrees hi
  rw [evalAtPower_eq_valueAtPower, codeLen, funext sum,
    field.valueAtPower_xor (field.parityCoeff_lt gen small) shifted, kept]
  exact BitVec.xor_self

/-! ### The parity is the remainder on division by GEN (R62 (c)) -/

theorem convCoeff_eq_xorSum (f : FieldContext) (q g : List Elem) (d : Nat) :
    convCoeff f q g d = xorSum (fun t => product f (q.getD t 0) (g.getD (d - t) 0)) (d + 1) := rfl

section Quotient

variable {prim : PrimTable} {r : Nat} {f : FieldContext} {e : EncoderContext} (field : BuiltField prim r f)

include field

/-- Adding c * x^k to a quotient adds c * x^k * g to the product. -/
theorem BuiltField.convCoeff_addAt {q g : List Elem} (smallQ : ∀ j, (q.getD j 0).toNat < 2 ^ r)
    (smallG : ∀ j, (g.getD j 0).toNat < 2 ^ r) {c : Elem} (hc : c.toNat < 2 ^ r) {k : Nat} (inside : k < q.length)
    (d : Nat) :
    convCoeff f (q.set k (q.getD k 0 ^^^ c)) g d = convCoeff f q g d ^^^ product f c (shiftedCoeff g k d) := by
  have term : ∀ t, product f ((q.set k (q.getD k 0 ^^^ c)).getD t 0) (g.getD (d - t) 0) =
      product f (q.getD t 0) (g.getD (d - t) 0) ^^^ if t = k then product f c (g.getD (d - k) 0) else 0 := by
    intro t
    rw [getD_set inside]
    split
    · next same => rw [same, field.xor_product (smallQ k) hc (smallG _)]
    · exact BitVec.xor_zero.symm
  rw [convCoeff_eq_xorSum, funext term, xorSum_xor, xorSum_single, ← convCoeff_eq_xorSum]
  split
  · next le => rw [shiftedCoeff_of_le _ _ (Nat.le_of_lt_succ le)]
  · next below => rw [shiftedCoeff_below _ _ (by omega), product_zero]

/-- The multiples of GEN that the steps add make up a quotient, one coefficient for each degree of the message. -/
theorem BuiltField.exists_quotient (gen : e.gen = rootProduct f (2 * e.s)) {b : Nat → Elem}
    (small : ∀ j, (b j).toNat < 2 ^ r) {k : Nat} {is : List Nat}
    (inside : ∀ i ∈ is, 2 * e.s ≤ i ∧ i < k + 2 * e.s) :
    ∃ q : List Elem, q.length = k ∧ (∀ j, (q.getD j 0).toNat < 2 ^ r) ∧
      ∀ d, b d = convCoeff f q e.gen d ^^^ cancelAll f e b is d := by
  induction is generalizing b with
  | nil =>
    refine ⟨List.replicate k 0, List.length_replicate, fun j => ?_, fun d => ?_⟩
    · rw [getD_zeros]
      exact Nat.two_pow_pos r
    · rw [convCoeff_eq_xorSum, xorSum_zeros fun j _ => by rw [getD_zeros, zero_product]]
      exact BitVec.zero_xor.symm
  | cons i is ih =>
    obtain ⟨le, lt⟩ := inside i List.mem_cons_self
    obtain ⟨q, qLen, qSmall, divides⟩ :=
      ih (field.cancelAt_lt gen small (i := i)) fun j hj => inside j (List.mem_cons_of_mem i hj)
    have degree : i - 2 * e.s < q.length := by omega
    refine ⟨q.set (i - 2 * e.s) (q.getD (i - 2 * e.s) 0 ^^^ b i), List.length_set.trans qLen, fun j => ?_,
      fun d => ?_⟩
    · rw [getD_set degree]
      split
      · rw [BitVec.toNat_xor]
        exact Nat.xor_lt_two_pow (qSmall _) (small i)
      · exact qSmall j
    · have step := divides d
      rw [cancelAt] at step
      calc b d
        _ = b d ^^^ product f (b i) (shiftedCoeff e.gen (i - 2 * e.s) d) ^^^
              product f (b i) (shiftedCoeff e.gen (i - 2 * e.s) d) := by
          rw [BitVec.xor_assoc, BitVec.xor_self, BitVec.xor_zero]
        _ = _ := by
          rw [step, field.convCoeff_addAt qSmall (gen_getD_lt gen field) (small i) degree, cancelAll, cancelAll,
            List.foldl_cons]
          ac_rfl

end Quotient

/-- Settles O49: the steps of the division make up the quotient, and what they leave is the remainder. -/
theorem encparAnswersRemainder : Obligations.EncparAnswersRemainder := by
  intro len m s ready right mLen small
  have field := ready.field.valid.builtField ready.field.prim
  have gen := ready.valid.gen_eq field
  obtain ⟨p, answers, pLen, pCoeff⟩ := field.parityDivide_answers ready.valid mLen small
  have shifted := shifted_message_lt small (2 * s.enc.s)
  obtain ⟨q, qLen, qSmall, divides⟩ :=
    field.exists_quotient gen shifted fun i hi => mLen ▸ ready.valid.mem_degrees hi
  refine ⟨p, exec_encpar_of_parity ready.flag right small answers, forall_mem_iff_getD.mpr fun d => ?_, pLen,
    q, qLen, fun x hx => isElem_iff.mpr (forall_mem_iff_getD.mpr qSmall x hx), fun d _ => ?_⟩
  · rw [pCoeff]
    exact field.parityCoeff_lt gen small d
  · rw [pCoeff]
    exact divides d

/-! ### Pack (R63) -/

theorem symbolBits_length (r : Nat) (x : Elem) : (symbolBits r x).length = r := by simp [symbolBits]

theorem packBits_length (p : List Elem) (r : Nat) : (packBits p r).length = p.length * r := by
  simp [packBits, List.length_flatMap, symbolBits_length]

/-- The number that a bit string spells, most significant bit first. -/
def numberOfBits (bits : List Bool) : Nat := bits.foldl (fun acc b => 2 * acc + b.toNat) 0

theorem byteOfBits_eq (bits : List Bool) : byteOfBits bits = BitVec.ofNat 8 (numberOfBits bits) := rfl

theorem map_testBit_numberOfBits (bits : List Bool) :
    (List.range bits.length).map (numberOfBits bits).testBit = bits.reverse := by
  induction bits using List.reverseRecOn with
  | nil => rfl
  | append_singleton bits b ih =>
    have double : numberOfBits (bits ++ [b]) = Nat.bit b (numberOfBits bits) := by
      rw [numberOfBits, List.foldl_append, Nat.bit_val]
      rfl
    rw [double, List.length_append, List.length_singleton, List.range_succ_eq_map, List.map_cons, List.map_map,
      List.reverse_append, ← ih, Nat.testBit_bit_zero]
    refine congrArg (b :: ·) (List.map_congr_left fun i _ => ?_)
    exact Nat.testBit_bit_succ i b _

/-- A byte spells the eight bits it was made from. -/
theorem bits_byteOfBits {bits : List Bool} (len : bits.length = 8) :
    ((List.range 8).map (byteOfBits bits).getLsbD).reverse = bits := by
  have low : (List.range 8).map (byteOfBits bits).getLsbD =
      (List.range bits.length).map (numberOfBits bits).testBit := by
    rw [len]
    refine List.map_congr_left fun i hi => ?_
    rw [byteOfBits_eq, BitVec.getLsbD_ofNat, decide_eq_true (List.mem_range.mp hi), Bool.true_and]
  rw [low, map_testBit_numberOfBits, List.reverse_reverse]

/-- Cutting a list into n pieces of length w and joining them gives its first w * n entries. -/
theorem flatMap_pieces {α : Type} (l : List α) (w n : Nat) :
    (List.range n).flatMap (fun q => (l.drop (w * q)).take w) = l.take (w * n) := by
  induction n with
  | zero => rfl
  | succ n ih => rw [List.range_succ, List.flatMap_append, ih, List.flatMap_singleton, Nat.mul_succ, List.take_add]

/-- Settles O54: the bytes spell the pieces of eight bits, which join to the whole bit string. -/
theorem packKeepsTheBitString : Obligations.PackKeepsTheBitString := by
  intro p r _ _
  refine ⟨fun whole => ⟨_, if_pos whole, ?_, ?_⟩, fun ragged => if_neg ragged⟩
  · rw [List.length_map, List.length_range]
    exact Nat.mul_div_cancel' (Nat.dvd_of_mod_eq_zero whole)
  · have total : (packBits p r).length = 8 * (p.length * r / 8) := by
      rw [packBits_length, Nat.mul_div_cancel' (Nat.dvd_of_mod_eq_zero whole)]
    have spelled : ∀ q ∈ List.range (p.length * r / 8),
        ((List.range 8).map (byteOfBits (((packBits p r).drop (8 * q)).take 8)).getLsbD).reverse =
          ((packBits p r).drop (8 * q)).take 8 := by
      intro q hq
      have inside := List.mem_range.mp hq
      exact bits_byteOfBits (by rw [List.length_take, List.length_drop]; omega)
    rw [List.flatMap_map, List.flatMap_congr spelled, flatMap_pieces, ← total, List.take_length]

end Sys2Proof.Machine

/-! # Proofs about exceptions (60_exceptions.md)

Under the invariant every move of the host ends in a next state. A failing command only answers its code, and the first
check that fails gives it. -/

namespace Sys2Proof.Machine

/-! ### Every command completes (R67) -/

section Ready

variable {s : State} (inv : s.Inv) (admissible : PrimAdmissible s.cfg.prim)

include inv admissible

/-- Under the invariant FVALID = 1 is all that the field commands need. -/
theorem State.Inv.fieldReady (flag : s.fvalid = true) : s.FieldReady := by
  have valid := inv.field flag
  exact ⟨flag, valid, admissible.primitive _ valid.lower valid.upper⟩

/-- Under the invariant EVALID = 1 is all that the encoder commands need. -/
theorem State.Inv.encoderReady (flag : s.evalid = true) : s.EncoderReady :=
  ⟨inv.fieldReady admissible (inv.flags flag), flag, inv.enc flag⟩

end Ready

section Completion

variable {i : Instr} {s : State}

/-- In a ready field context every field command passes its range check and finds its table entries, or fails the
check. -/
theorem State.FieldReady.exec_completes (ready : s.FieldReady) (reads : readsField i = true) :
    ∃ t, exec i s = .next t := by
  cases i with
  | gfexp x => exact ⟨_, (gfexpAnswersPowerOfAlpha x s ready).1⟩
  | gfmul x y =>
    by_cases range : 2 ^ s.field.r ≤ x.toNat ∨ 2 ^ s.field.r ≤ y.toNat
    · exact ⟨_, exec_gfmul_of_range ready.flag range⟩
    · obtain ⟨hx, hy⟩ := not_or.mp range
      exact ⟨_, gfmulAnswersPolynomialProduct x y s ready (not_le.mp hx) (not_le.mp hy)⟩
  | rdexp x =>
    by_cases range : 2 ^ s.field.r ≤ x.toNat
    · exact ⟨_, exec_rdexp_of_range ready.flag range⟩
    · exact ⟨_, (rdexpAnswersPowerOfAlpha x s ready (not_le.mp range)).1⟩
  | rdlog x =>
    by_cases range : x = 0 ∨ 2 ^ s.field.r ≤ x.toNat
    · exact ⟨_, exec_rdlog_of_range ready.flag range⟩
    · obtain ⟨nonzero, hx⟩ := not_or.mp range
      obtain ⟨l, -, -, -, -, runs⟩ := rdlogAnswersDiscreteLogarithm x s ready nonzero (not_le.mp hx)
      exact ⟨_, runs⟩
  | gfinit _ | encinit _ _ _ | encpar _ _ | rdgen _ => exact absurd reads Bool.false_ne_true

/-- In a ready encoder context RDGEN finds its coefficient and ENCPAR its parity, or a check fails. A well-formed ENCPAR
of the right length brings K symbols. -/
theorem State.EncoderReady.exec_completes (ready : s.EncoderReady) (wf : i.wf = true) (reads : readsEncoder i = true) :
    ∃ t, exec i s = .next t := by
  cases i with
  | rdgen j =>
    by_cases range : j.toNat ≤ 2 * s.enc.s
    · exact ⟨_, rdgenAnswersCoefficient j s ready range⟩
    · exact ⟨_, exec_rdgen_of_range ready.flag (not_le.mp range)⟩
  | encpar len m =>
    by_cases right : len.toNat = s.enc.k
    · by_cases small : ∀ x ∈ m, x.toNat < 2 ^ s.field.r
      · have whole : m.length = s.enc.k := (eq_of_beq wf).trans right
        obtain ⟨p, runs, -, -⟩ := encparAnswersRemainder len m s ready right whole small
        exact ⟨_, runs⟩
      · exact ⟨_, exec_encpar_of_range ready.flag right (by simpa using small)⟩
    · exact ⟨_, exec_encpar_of_length ready.flag right⟩
  | gfinit _ | gfexp _ | gfmul _ _ | encinit _ _ _ | rdexp _ | rdlog _ => exact absurd reads Bool.false_ne_true

variable (inv : s.Inv) (admissible : PrimAdmissible s.cfg.prim)

include inv admissible

/-- The commands that build check their configuration; each of the others finds its context missing or ready. -/
theorem State.Inv.exec_completes (wf : i.wf = true) : ∃ t, exec i s = .next t := by
  cases i with
  | gfinit r =>
    obtain ⟨accepts, refuses⟩ := gfinitBuildsFieldContext r s
    by_cases order : 2 ≤ r.toNat ∧ r.toNat ≤ 16
    · exact ⟨_, accepts order⟩
    · exact ⟨_, refuses order⟩
  | encinit k sc r =>
    obtain ⟨accepts, refuses⟩ := encinitBuildsBothContexts k sc r s
    by_cases config : configOk s.cfg k sc r = true
    · obtain ⟨⟨lower, upper⟩, -⟩ := configOk_iff.mp config
      exact ⟨_, accepts (configOk_iff.mp config) (admissible.primitive _ lower upper)⟩
    · exact ⟨_, refuses (mt configOk_iff.mpr config)⟩
  | gfexp _ | gfmul _ _ | rdexp _ | rdlog _ =>
    cases flag : s.fvalid with
    | false => exact ⟨_, exec_noContext_of_readsField rfl flag⟩
    | true => exact (inv.fieldReady admissible flag).exec_completes rfl
  | encpar _ _ | rdgen _ =>
    cases flag : s.evalid with
    | false => exact ⟨_, exec_noContext_of_readsEncoder rfl flag⟩
    | true => exact (inv.encoderReady admissible flag).exec_completes wf rfl

/-- A packet holds an illegal word, which `fail` answers, or a well-formed command. -/
theorem State.Inv.runPacket_completes (p : Packet) : ∃ t, runPacket p s = .next t := by
  cases decodes : decode p.cw p.payload with
  | error e => exact ⟨_, runPacket_of_illegal (illegalWord_iff_decode_error.mpr ⟨e, decodes⟩)⟩
  | ok i =>
    obtain ⟨wf, -⟩ := decodedInstructionEncodesBack p i decodes
    rw [runPacket_of_decode decodes]
    exact inv.exec_completes admissible wf

theorem State.Inv.step_completes : ∃ t, step s = .next t := by
  unfold step
  split
  · exact ⟨_, rfl⟩
  · next p rest _ => exact (inv.withInbox rest).runPacket_completes admissible p
  · exact ⟨_, rfl⟩

end Completion

/-- No command writes the parameters (R12). -/
theorem Ends.cfg_eq {i : Instr} {s t : State} (ends : Ends i s t) : t.cfg = s.cfg := by cases ends <;> rfl

theorem step_keeps_cfg {s t : State} (h : step s = .next t) : t.cfg = s.cfg := by
  obtain ⟨-, rfl⟩ | ⟨rest, -, rfl⟩ | ⟨p, rest, e, -, -, rfl⟩ | ⟨p, rest, i, -, -, runs⟩ := step_cases h
  · rfl
  · rfl
  · rfl
  · exact (exec_ends runs).cfg_eq

/-- Settles O13: under the invariant a set flag means a ready context, in which every command completes, and a clear one
is answered NoContext. -/
theorem stepNeverFaults : Obligations.StepNeverFaults := by
  intro s admissible inv
  obtain ⟨t, runs⟩ := inv.step_completes admissible
  exact ⟨t, runs, step_keeps_inv inv runs, step_keeps_cfg runs⟩

/-! ### Taking every waiting move (R64, R86) -/

/-- The moves of the host that ask for a response. -/
def HostMove.isCommand : HostMove → Bool
  | .command _ => true
  | .reset => false

/-- A step takes the first waiting move off the inbox and answers it when it is a command. -/
theorem step_takes_move {s t : State} {mv : HostMove} {rest : List HostMove} (waits : s.inbox = mv :: rest)
    (h : step s = .next t) : t.inbox = rest ∧ t.outbox.length = s.outbox.length + if mv.isCommand then 1 else 0 := by
  cases mv with
  | command p =>
    obtain ⟨taken, -, r, outbox, -⟩ := eachCommandGetsOneResponse s t p rest waits h
    exact ⟨taken, by rw [outbox, List.length_append]; rfl⟩
  | reset =>
    rw [step, waits] at h
    cases h
    exact ⟨rfl, rfl⟩

theorem run_succ_of_step {s t : State} (h : step s = .next t) (k : Nat) :
    Host.Core.run core (k + 1) s = Host.Core.run core k t := by
  have first : core.step s = .next t := h
  simp only [Host.Core.run, first]

/-- The induction over the waiting moves: each step takes one of them and keeps what the next step needs. -/
theorem run_takes_every_move {moves : List HostMove} {s : State} (waits : s.inbox = moves)
    (admissible : PrimAdmissible s.cfg.prim) (inv : s.Inv) :
    ∃ t : State, Host.Core.run core moves.length s = .next t ∧ t.inbox = [] ∧ t.Inv ∧
      t.outbox.length = s.outbox.length + moves.countP HostMove.isCommand := by
  induction moves generalizing s with
  | nil => exact ⟨s, rfl, waits, inv, rfl⟩
  | cons mv rest ih =>
    obtain ⟨u, runs, invU, cfg⟩ := stepNeverFaults s admissible inv
    obtain ⟨taken, answered⟩ := step_takes_move waits runs
    obtain ⟨t, runsRest, empty, invT, responses⟩ := ih taken (cfg ▸ admissible) invU
    refine ⟨t, (run_succ_of_step runs rest.length).trans runsRest, empty, invT, ?_⟩
    rw [responses, answered, List.countP_cons]
    omega

/-- Settles O14: no step faults, so that the run goes on until the last waiting move is taken. -/
theorem everyWaitingCommandIsAnswered : Obligations.EveryWaitingCommandIsAnswered := by
  intro s admissible inv
  obtain ⟨t, runs, empty, invT, responses⟩ := run_takes_every_move rfl admissible inv
  refine ⟨t, runs, empty, invT, ?_⟩
  rw [responses, List.countP_eq_length_filter]
  exact congrArg (s.outbox.length + List.length ·) (List.filter_congr fun mv _ => by cases mv <;> rfl)

/-! ### A failing command writes nothing (R70) -/

/-- The response of a failure has no value, so that only its code is in the word. -/
theorem failResponse_word (st : Status) : (failResponse st).word = st.code.setWidth 64 <<< 60 := BitVec.or_zero

/-- Settles O16: of the ways a command ends, the two that write contexts answer OK. -/
theorem failedCommandsWriteNothing : Obligations.FailedCommandsWriteNothing := by
  refine ⟨fun i s t r runs outbox failed => ?_, failResponse_word⟩
  cases exec_ends runs with
  | answers q proper =>
    obtain rfl : q = r := by simpa using outbox
    obtain ⟨val, payload⟩ := proper failed
    exact ⟨val, payload, rfl⟩
  | builtField _ _ _ | builtEncoder _ _ _ _ _ _ _ =>
    obtain rfl : okResponse 0 [] = r := by simpa using outbox
    exact absurd rfl failed

/-! ### The order of the checks (R69) -/

/-- The conditions under which R58 refuses a configuration, one by one. -/
theorem exec_encinit_of_refused {k sc : BitVec 16} {r : BitVec 5} {s : State}
    (refused : ¬(2 ≤ r.toNat ∧ r.toNat ≤ 16) ∨ k.toNat = 0 ∨ sc.toNat = 0 ∨
      (s.cfg.strictN = true ∧ 2 ^ r.toNat - 1 < k.toNat + 2 * sc.toNat)) :
    exec (.encinit k sc r) s = .next (answered s (failResponse .configError)) := by
  refine if_neg fun config => ?_
  obtain ⟨order, hk, hs, bound⟩ := configOk_iff.mp config
  obtain wrong | zero | zero | ⟨strict, large⟩ := refused
  · exact wrong order
  · exact hk zero
  · exact hs zero
  · exact (bound strict).not_gt large

/-- Settles O20: each check, where those before it pass. -/
theorem checksAreMadeInOrder : Obligations.ChecksAreMadeInOrder := by
  refine ⟨fun _ _ => runPacket_of_illegal, fun i s missing => ?_, fun r s => (gfinitBuildsFieldContext r s).2,
    fun _ _ _ _ => exec_encinit_of_refused, fun _ _ _ flag => exec_encpar_of_length flag,
    fun _ _ _ flag right => exec_encpar_of_range flag right, fun _ _ _ flag => exec_gfmul_of_range flag,
    fun _ _ flag => exec_rdexp_of_range flag, fun _ _ flag => exec_rdlog_of_range flag,
    fun _ _ flag => exec_rdgen_of_range flag⟩
  obtain ⟨reads, flag⟩ | ⟨reads, flag⟩ := missing
  · exact exec_noContext_of_readsField reads flag
  · exact exec_noContext_of_readsEncoder reads flag

/-! ### Idling (R74) -/

/-- Settles O8: `step` idles on an empty inbox. -/
theorem idleBlockKeepsItsState : Obligations.IdleBlockKeepsItsState := by
  intro s waits
  rw [step, waits]
  rfl

end Sys2Proof.Machine

/-! # Proofs about reset and hazards (70_reset_and_hazards.md)

What writes the contexts and the flags, why LOG[0] cannot be seen, what a GFINIT after an ENCINIT leaves, and how many
calls of Mul the two builders make. -/

namespace Sys2Proof.Machine

/-! ### The reset move (R75) -/

/-- With both flags 0 every command that reads a context ends NoContext. -/
theorem exec_noContext_of_readOnly {i : Instr} {s : State} (reads : readOnly i = true) (fvalid : s.fvalid = false)
    (evalid : s.evalid = false) : exec i s = .next (answered s (failResponse .noContext)) := by
  cases i with
  | gfexp _ | gfmul _ _ | rdexp _ | rdlog _ => exact exec_noContext_of_readsField rfl fvalid
  | encpar _ _ | rdgen _ => exact exec_noContext_of_readsEncoder rfl evalid
  | gfinit _ | encinit _ _ _ => exact absurd reads Bool.false_ne_true

/-- Settles O9: the reset move clears the flags that every reading command tests first. -/
theorem resetMoveClearsBothFlags : Obligations.ResetMoveClearsBothFlags := by
  intro s rest waits
  have resets : step s = .next (State.assertReset { s with inbox := rest }) := by rw [step, waits]
  exact ⟨_, resets, rfl, rfl, rfl, rfl, rfl, fun _ reads => exec_noContext_of_readOnly reads rfl rfl⟩

/-! ### What writes the contexts (R81) -/

/-- A command leaves the contexts and the flags alone, or it is a GFINIT or an ENCINIT that answers OK. -/
theorem Ends.keeps_or_builds {i : Instr} {s t : State} (ends : Ends i s t) :
    (t.field = s.field ∧ t.enc = s.enc ∧ t.fvalid = s.fvalid ∧ t.evalid = s.evalid) ∨
      (readOnly i = false ∧ t.outbox = s.outbox ++ [okResponse 0 []]) := by
  cases ends with
  | answers r _ => exact .inl ⟨rfl, rfl, rfl, rfl⟩
  | builtField r isGfinit _ => exact .inr ⟨isGfinit ▸ rfl, rfl⟩
  | builtEncoder k sc r gen isEncinit _ _ => exact .inr ⟨isEncinit ▸ rfl, rfl⟩

/-- Settles O17: a step idles, is a reset move, answers an illegal word, or runs a command, which only then can write
the contexts. -/
theorem contextsChangeOnlyByConstruction : Obligations.ContextsChangeOnlyByConstruction := by
  intro s t h
  refine ⟨step_keeps_cfg h, ?_⟩
  obtain ⟨-, rfl⟩ | ⟨rest, waits, -⟩ | ⟨p, rest, e, -, -, rfl⟩ | ⟨p, rest, i, waits, decodes, runs⟩ := step_cases h
  · exact .inl ⟨rfl, rfl, rfl, rfl⟩
  · exact .inr (.inl ⟨rest, waits⟩)
  · exact .inl ⟨rfl, rfl, rfl, rfl⟩
  · obtain keeps | ⟨builds, outbox⟩ := (exec_ends runs).keeps_or_builds
    · exact .inl keeps
    · exact .inr (.inr ⟨p, rest, i, waits, decodes, builds, outbox⟩)

/-! ### The life of the encoder context (R85) -/

/-- Of the commands only ENCINIT sets EVALID. -/
theorem Ends.isEncinit_of_evalid {i : Instr} {s t : State} (ends : Ends i s t) (before : s.evalid = false)
    (after : t.evalid = true) : ∃ k sc r, i = .encinit k sc r := by
  cases ends with
  | answers r _ => exact absurd (before.symm.trans after) Bool.false_ne_true
  | builtField r _ _ => exact absurd after Bool.false_ne_true
  | builtEncoder k sc r gen isEncinit _ _ => exact ⟨k, sc, r, isEncinit⟩

/-- An ENCINIT that ends either fails its check or builds both contexts (R58). -/
theorem exec_encinit_ends {k sc : BitVec 16} {r : BitVec 5} {s t : State} (runs : exec (.encinit k sc r) s = .next t) :
    t = answered s (failResponse .configError) ∨
      ∃ e, t = answered (s.installEncoder (fieldBuild s.cfg.prim r.toNat) e) (okResponse 0 []) := by
  by_cases accepted : configOk s.cfg k sc r = true
  · cases built : genBuild (fieldBuild s.cfg.prim r.toNat) sc.toNat with
    | ok gen =>
      rw [exec_encinit_of_config accepted built] at runs
      cases runs
      exact .inr ⟨_, rfl⟩
    | error flt =>
      change execEncinit k sc r s = _ at runs
      simp [execEncinit, accepted, built] at runs
  · cases (if_neg accepted).symm.trans runs
    exact .inl rfl

/-- Settles O21: GFINIT clears EVALID, only ENCINIT sets it, and an ENCINIT that ends OK has built its field context. -/
theorem gfinitEndsEncoderContext : Obligations.GfinitEndsEncoderContext := by
  refine ⟨fun r s t lower upper runs => ?_, fun _ _ _ before runs => (exec_ends runs).isEncinit_of_evalid before,
    fun k sc r s t runs outbox => ?_⟩
  · obtain ⟨accepts, -⟩ := gfinitBuildsFieldContext r s
    cases (accepts ⟨lower, upper⟩).symm.trans runs
    exact ⟨rfl, fun i reads => exec_noContext_of_readsEncoder reads rfl⟩
  · obtain rfl | ⟨e, rfl⟩ := exec_encinit_ends runs
    · have same : failResponse .configError = okResponse 0 [] := by simpa using outbox
      exact absurd (congrArg Response.status same) (by decide)
    · exact ⟨rfl, rfl, rfl⟩

/-! ### LOG[0] cannot be seen (R16, R77) -/

/-- f with v in the place of LOG[0]. -/
def setLogOfZero (f : FieldContext) (v : Option LogValue) : FieldContext := { f with log := f.log.set 0 v }

section LogOfZero

variable (f : FieldContext) (v : Option LogValue)

/-- Log of a symbol other than 0 reads another entry. -/
theorem logAt_setLogOfZero {x : Elem} (nonzero : x ≠ 0) : logAt (setLogOfZero f v) x = logAt f x := by
  have other : 0 ≠ x.toNat := fun zero => nonzero (BitVec.eq_of_toNat_eq zero.symm)
  rw [logAt, logAt, readEntry, readEntry, setLogOfZero, List.getElem?_set_ne other]

/-- Mul asks for logarithms only where no operand is 0 (R45). -/
theorem mul_setLogOfZero (x y : Elem) : mul (setLogOfZero f v) x y = mul f x y := by
  by_cases zero : x = 0 ∨ y = 0
  · rw [mul_zero_operand zero, mul_zero_operand zero]
  · obtain ⟨hx, hy⟩ := not_or.mp zero
    rw [mul, mul, logAt_setLogOfZero f v hx, logAt_setLogOfZero f v hy]
    rfl

/-- ParityDivide reads LOG by Mul alone. -/
theorem parityDivide_setLogOfZero (e : EncoderContext) (m : List Elem) :
    parityDivide (setLogOfZero f v) e m = parityDivide f e m := by
  have inner : parityInner (setLogOfZero f v) e = parityInner f e := by
    funext i c buf j
    simp only [parityInner, mul_setLogOfZero]
  have outer : parityStep (setLogOfZero f v) e = parityStep f e := by
    funext buf i
    simp only [parityStep, inner]
  simp only [parityDivide, parityLoop, outer]

end LogOfZero

/-- s with v in the place of LOG[0]. -/
def State.setLogOfZero (s : State) (v : Option LogValue) : State := { s with field := Machine.setLogOfZero s.field v }

section SameResponses

variable {s s' : State} (outbox : s'.outbox = s.outbox)

include outbox

/-- Commands that end with one result leave the same responses where the same stood before. -/
theorem SameAnswer.outbox_eq {t : State} {a a' : Host.Outcome State Fault Refusal} (same : SameAnswer s s' a a')
    (runs : a = .next t) : ∃ t', a' = .next t' ∧ t'.outbox = t.outbox := by
  obtain ⟨x, rfl, rfl⟩ := same
  obtain ⟨r, rfl, rfl⟩ := finish_eq_next.mp runs
  exact ⟨_, finish_ok s' r, congrArg (· ++ [r]) outbox⟩

/-- A command that fails a check or else builds `a`, the same from both states, leaves the same responses too. -/
theorem build_or_fail_outbox_eq {t : State} {c : Prop} [Decidable c] {a : Host.Outcome State Fault Refusal}
    {st : Status} (runs : (if c then a else fail st s) = .next t) :
    ∃ t', (if c then a else fail st s') = .next t' ∧ t'.outbox = t.outbox := by
  split at runs
  · next holds => exact ⟨t, (if_pos holds).trans runs, rfl⟩
  · next fails =>
    cases runs
    exact ⟨_, if_neg fails, congrArg (· ++ [failResponse st]) outbox⟩

end SameResponses

/-- The operand of RDLOG that passes its check is not 0 as a symbol either: it is below 2^16. -/
theorem symbol_ne_zero_of_logIndexOk {f : FieldContext} (upper : f.r ≤ rMax) {x : BitVec 32}
    (inRange : logIndexOk f x = true) : x.setWidth 16 ≠ 0 := by
  obtain ⟨nonzero, small⟩ := logIndexOk_iff.mp inRange
  have size : 2 ^ f.r ≤ 2 ^ 16 := Nat.pow_le_pow_right (by decide) upper
  intro zero
  have low := congrArg BitVec.toNat zero
  rw [BitVec.toNat_setWidth, Nat.mod_eq_of_lt (small.trans_le size)] at low
  exact nonzero low

/-- The result of a reading command is the same whatever stands at LOG[0]. -/
theorem exec_sameAnswer_setLogOfZero {i : Instr} (reads : readOnly i = true) {s : State} (upper : s.field.r ≤ rMax)
    (v : Option LogValue) : SameAnswer s (s.setLogOfZero v) (exec i s) (exec i (s.setLogOfZero v)) := by
  cases i with
  | gfinit _ | encinit _ _ _ => exact absurd reads Bool.false_ne_true
  | gfexp x => exact .withField rfl (.finish _)
  | rdexp x => exact .withField rfl (.ite (.finish _) (.fail _))
  | rdgen j => exact .withEncoder rfl (.ite (.finish _) (.fail _))
  | gfmul x y =>
    have product := mul_setLogOfZero s.field v x y
    refine .withField rfl (.ite ?_ (.fail _))
    rw [← product]
    exact .finish _
  | rdlog x =>
    refine .withField rfl ?_
    split
    · next inRange =>
      have logarithm := logAt_setLogOfZero s.field v (symbol_ne_zero_of_logIndexOk upper inRange)
      rw [← logarithm, if_pos (show logIndexOk (s.setLogOfZero v).field x = true from inRange)]
      exact .finish _
    · next outOfRange =>
      rw [if_neg (show ¬ logIndexOk (s.setLogOfZero v).field x = true from outOfRange)]
      exact .fail _
  | encpar len m =>
    have parity := parityDivide_setLogOfZero s.field v s.enc m
    refine .withEncoder rfl (.ite (.fail _) (.ite (.fail _) ?_))
    rw [← parity]
    exact .finish _

/-- Settles O19: a reading command asks for no logarithm of 0, and a building one does not read the old tables. -/
theorem answersIgnoreLogOfZero : Obligations.AnswersIgnoreLogOfZero := by
  intro i s t v upper runs
  have outbox : (s.setLogOfZero v).outbox = s.outbox := rfl
  cases i with
  | gfinit _ | encinit _ _ _ => exact build_or_fail_outbox_eq outbox runs
  | gfexp _ | gfmul _ _ | encpar _ _ | rdexp _ | rdlog _ | rdgen _ =>
    exact (exec_sameAnswer_setLogOfZero rfl upper v).outbox_eq outbox runs

/-! ### Counting loops (R88) -/

/-- The counts after k more calls of Mul. -/
def Counts.addCalls (n : Counts) (k : Nat) : Counts := { n with mulCalls := n.mulCalls + k }

section CountingLoop

variable {body : List Elem → Nat → Except Fault (List Elem)}
  {bodyC : List Elem × Counts → Nat → Except Fault (List Elem × Counts)}

/-- Where each iteration of a loop is followed by the counting one, the counting loop answers what the loop answers. A
tally that iteration i moves on by `weight i` has moved on by the sum of the weights. -/
theorem countingLoop_follows {Tally : Nat → Counts → Prop} {weight : Nat → Nat}
    (follows : ∀ {b b' n k i}, Tally k n → body b i = .ok b' →
      ∃ n', bodyC (b, n) i = .ok (b', n') ∧ Tally (k + weight i) n')
    (is : List Nat) {b b' : List Elem} {n : Counts} {k : Nat} (tally : Tally k n) (runs : is.foldlM body b = .ok b') :
    ∃ n', is.foldlM bodyC (b, n) = .ok (b', n') ∧ Tally (k + (is.map weight).sum) n' := by
  induction is generalizing b n k with
  | nil =>
    cases runs
    exact ⟨n, rfl, tally⟩
  | cons i is ih =>
    rw [List.foldlM_cons] at runs
    obtain ⟨b₁, first, rest⟩ := bind_eq_ok.mp runs
    obtain ⟨n₁, firstC, tally₁⟩ := follows tally first
    obtain ⟨n', restC, tally'⟩ := ih tally₁ rest
    rw [List.foldlM_cons, List.map_cons, List.sum_cons, ← Nat.add_assoc]
    exact ⟨n', bind_eq_ok.mpr ⟨_, firstC, restC⟩, tally'⟩

/-- A loop that calls Mul once in each iteration calls it as often as it iterates. -/
theorem countingLoop_one_call
    (follows : ∀ {b b' n i}, body b i = .ok b' → bodyC (b, n) i = .ok (b', n.addCalls 1)) (is : List Nat)
    {b b' : List Elem} (n : Counts) (runs : is.foldlM body b = .ok b') :
    is.foldlM bodyC (b, n) = .ok (b', n.addCalls is.length) := by
  obtain ⟨n', runsC, tally⟩ := countingLoop_follows (bodyC := bodyC) (Tally := fun k m => m = n.addCalls k)
    (weight := fun _ => 1) (fun tally step => ⟨_, follows step, congrArg (Counts.addCalls · 1) tally⟩) is (n := n)
    (k := 0) rfl runs
  rw [runsC, tally, List.map_const', List.sum_replicate, smul_eq_mul, Nat.mul_one, Nat.zero_add]

end CountingLoop

/-! ### The calls of Mul in GenBuild (R88) -/

/-- Outer step i makes i - 1 calls. -/
theorem genStepC_of_genStep {f : FieldContext} {gen gen' : List Elem} {i : Nat} (n : Counts)
    (runs : genStep f gen i = .ok gen') : genStepC f (gen, n) i = .ok (gen', n.addCalls (i - 1)) := by
  obtain ⟨gen₁, leading, runs⟩ := bind_eq_ok.mp runs
  obtain ⟨gen₂, inner, runs⟩ := bind_eq_ok.mp runs
  obtain ⟨c, power, last⟩ := bind_eq_ok.mp runs
  have innerC := countingLoop_one_call (bodyC := genInnerC f i) (fun step => bind_eq_ok.mpr ⟨_, step, rfl⟩) _ n inner
  have iterations : (downTo (i - 1) 1).length = i - 1 := by simp [downTo, upTo]
  rw [iterations] at innerC
  exact bind_eq_ok.mpr ⟨gen₁, leading, bind_eq_ok.mpr ⟨_, innerC, bind_eq_ok.mpr
    ⟨c, power, bind_eq_ok.mpr ⟨gen', last, rfl⟩⟩⟩⟩

/-- 0 + 1 + ... + (2s - 1). -/
theorem sum_outer_calls (s : Nat) : ((upTo 1 (2 * s)).map (· - 1)).sum = s * (2 * s - 1) := by
  have shifted : ∀ n, ((upTo 1 n).map (· - 1)).sum = tri (n - 1) := by
    intro n
    induction n with
    | zero => rfl
    | succ n ih =>
      rw [upTo_snoc (Nat.le_add_left 1 n), List.map_append, List.sum_append, ih]
      cases n with
      | zero => rfl
      | succ n => exact (Nat.add_comm _ _).trans (tri_succ n).symm
  have doubled := two_mul_tri (2 * s - 1)
  rw [shifted]
  rcases Nat.eq_zero_or_pos s with rfl | pos
  · rfl
  · rw [Nat.sub_add_cancel (by omega), Nat.mul_left_comm, Nat.mul_comm (2 * s - 1)] at doubled
    exact Nat.eq_of_mul_eq_mul_left two_pos doubled

theorem genBuildC_of_genBuild {f : FieldContext} {s : Nat} {gen : List Elem} (runs : genBuild f s = .ok gen) :
    genBuildC f s = .ok (gen, { mulCalls := s * (2 * s - 1), active := 0 }) := by
  obtain ⟨n', runsC, tally⟩ := countingLoop_follows (bodyC := genStepC f)
    (Tally := fun k m => m = { mulCalls := k, active := 0 }) (weight := (· - 1))
    (fun tally step => ⟨_, tally ▸ genStepC_of_genStep _ step, rfl⟩) _ (k := 0) rfl runs
  rw [tally, sum_outer_calls, Nat.zero_add] at runsC
  exact runsC

/-! ### The calls of Mul in ParityDivide (R88) -/

/-- The counts after a more outer iterations of ParityDivide at which BUF[i] is not 0: 2S calls each. -/
def Counts.addActive (n : Counts) (e : EncoderContext) (a : Nat) : Counts :=
  { mulCalls := n.mulCalls + 2 * e.s * a, active := n.active + a }

section ParityDivide

variable {f : FieldContext} {e : EncoderContext} {buf buf' : List Elem} {i : Nat} (n : Counts)

theorem parityStepC_of_zero (zero : buf[i]? = some 0) : parityStepC f e (buf, n) i = .ok (buf, n) :=
  bind_eq_ok.mpr ⟨0, readEntry_eq_ok.mpr zero, if_pos rfl⟩

theorem parityStepC_of_nonzero {c : Elem} (leading : buf[i]? = some c) (nonzero : c ≠ 0)
    (runs : parityStep f e buf i = .ok buf') : parityStepC f e (buf, n) i = .ok (buf', n.addActive e 1) := by
  have read := readEntry_eq_ok.mpr leading
  obtain ⟨c', read', runs⟩ := bind_eq_ok.mp runs
  obtain rfl : c = c' := Except.ok.inj (read.symm.trans read')
  obtain ⟨buf₁, inner, last⟩ := bind_eq_ok.mp ((if_neg nonzero).symm.trans runs)
  have innerC :=
    countingLoop_one_call (bodyC := parityInnerC f e i c) (fun step => bind_eq_ok.mpr ⟨_, step, rfl⟩) _ n inner
  have iterations : (upTo 1 (2 * e.s)).length = 2 * e.s := by simp [upTo]
  rw [iterations] at innerC
  refine bind_eq_ok.mpr ⟨c, read, (if_neg nonzero).trans
    (bind_eq_ok.mpr ⟨_, innerC, bind_eq_ok.mpr ⟨buf', last, ?_⟩⟩)⟩
  rw [Counts.addActive, Nat.mul_one]
  rfl

/-- An outer step does nothing or is active. -/
theorem parityStepC_of_parityStep (runs : parityStep f e buf i = .ok buf') :
    ∃ a ≤ 1, parityStepC f e (buf, n) i = .ok (buf', n.addActive e a) := by
  obtain ⟨c, read, body⟩ := bind_eq_ok.mp runs
  have leading := readEntry_eq_ok.mp read
  by_cases zero : c = 0
  · subst zero
    cases (if_pos rfl).symm.trans body
    exact ⟨0, Nat.zero_le 1, parityStepC_of_zero n leading⟩
  · exact ⟨1, le_rfl, parityStepC_of_nonzero n leading zero runs⟩

/-- Where BUF holds only zeros the counting loop does nothing. -/
theorem parityLoopC_of_zeros {is : List Nat} (zeros : ∀ i ∈ is, buf[i]? = some 0) :
    is.foldlM (parityStepC f e) (buf, n) = .ok (buf, n) := by
  induction is with
  | nil => rfl
  | cons i is ih =>
    rw [List.foldlM_cons]
    exact bind_eq_ok.mpr ⟨_, parityStepC_of_zero n (zeros i List.mem_cons_self),
      ih fun j hj => zeros j (List.mem_cons_of_mem i hj)⟩

end ParityDivide

/-- The counts of a division in whose first k iterations at most k were active. -/
def DivisionTally (e : EncoderContext) (k : Nat) (n : Counts) : Prop :=
  ∃ a ≤ k, n = { mulCalls := 2 * e.s * a, active := a }

theorem DivisionTally.addActive {e : EncoderContext} {k a : Nat} {n : Counts} (tally : DivisionTally e k n)
    (ha : a ≤ 1) : DivisionTally e (k + 1) (n.addActive e a) := by
  obtain ⟨b, hb, rfl⟩ := tally
  exact ⟨b + a, Nat.add_le_add hb ha, by rw [Counts.addActive, Nat.mul_add]⟩

/-- The division makes at most K outer iterations. The one it would make at N = 0 reads outside the empty BUF. -/
theorem degrees_length_le {f : FieldContext} {e : EncoderContext} {buf buf' : List Elem} (total : e.n = e.k + 2 * e.s)
    (len : buf.length = e.n) (runs : parityLoop f e buf = .ok buf') : (downTo (e.n - 1) (2 * e.s)).length ≤ e.k := by
  have iterations : (downTo (e.n - 1) (2 * e.s)).length = e.n - 1 + 1 - 2 * e.s := by simp [downTo, upTo]
  rcases Nat.eq_zero_or_pos e.n with empty | pos
  · rw [parityLoop, empty, show e.s = 0 by omega, List.eq_nil_of_length_eq_zero (len.trans empty)] at runs
    exact nomatch runs
  · omega

/-- Where ParityDivide answers, its counting copy gives the same answer and its count. -/
theorem parityDivideC_of_parityDivide {f : FieldContext} {e : EncoderContext} {m p : List Elem}
    (total : e.n = e.k + 2 * e.s) (runs : parityDivide f e m = .ok p) :
    ∃ a ≤ e.k, parityDivideC f e m = .ok (p, { mulCalls := 2 * e.s * a, active := a }) := by
  obtain ⟨buf, start, runs⟩ := bind_eq_ok.mp runs
  obtain ⟨buf', loop, low⟩ := bind_eq_ok.mp runs
  cases low
  obtain ⟨n', loopC, a, ha, rfl⟩ := countingLoop_follows (bodyC := parityStepC f e) (Tally := DivisionTally e)
    (weight := fun _ => 1) (n := { mulCalls := 0, active := 0 }) (k := 0)
    (fun tally step =>
      have ⟨_, ha, stepC⟩ := parityStepC_of_parityStep _ step
      ⟨_, stepC, tally.addActive ha⟩) _ ⟨0, le_rfl, rfl⟩ loop
  rw [List.map_const', List.sum_replicate, smul_eq_mul, Nat.mul_one, Nat.zero_add] at ha
  exact ⟨a, ha.trans (degrees_length_le total (parityStart_length start) loop),
    bind_eq_ok.mpr ⟨buf, start, bind_eq_ok.mpr ⟨_, loopC, rfl⟩⟩⟩

/-! ### The counts for the zero and the unit message (R88) -/

section Messages

variable {cfg : Config} {f : FieldContext} {e : EncoderContext} {m : List Elem} (valid : EncoderValid cfg f e)
  (len : m.length = e.k)

include valid len

/-- BUF before the division holds the coefficients of x^(2S) * m at every degree that the division visits. -/
theorem EncoderValid.start_entry {i : Nat} (hi : i ∈ downTo (e.n - 1) (2 * e.s)) :
    (List.replicate (2 * e.s) 0 ++ m)[i]? = some (shiftedCoeff m (2 * e.s) i) := by
  obtain ⟨-, top⟩ := valid.mem_degrees hi
  exact readEntry_eq_ok.mp (readEntry_of_lt (by rw [List.length_append, List.length_replicate]; omega))

/-- A message whose coefficients are all 0 makes no iteration active. -/
theorem EncoderValid.parityDivideC_of_zero_coeffs (zeros : ∀ i, shiftedCoeff m (2 * e.s) i = 0) :
    parityDivideC f e m = .ok (List.replicate (2 * e.s) 0, { mulCalls := 0, active := 0 }) := by
  have loop := parityLoopC_of_zeros (f := f) (e := e) { mulCalls := 0, active := 0 } fun i hi =>
    (valid.start_entry len hi).trans (congrArg some (zeros i))
  refine bind_eq_ok.mpr ⟨_, parityStart_eq valid.total len, bind_eq_ok.mpr ⟨_, loop, ?_⟩⟩
  exact congrArg (fun p => Except.ok (p, _)) (List.take_left' List.length_replicate)

/-- For the message whose one coefficient is 1, at degree 2S, only the last iteration is active. -/
theorem EncoderValid.parityDivideC_of_unit_coeffs (field : BuiltField cfg.prim f.r f)
    (unit : ∀ i, shiftedCoeff m (2 * e.s) i = if i = 2 * e.s then 1 else 0) :
    ∃ p, parityDivideC f e m = .ok (p, { mulCalls := 2 * e.s, active := 1 }) := by
  have total := valid.total
  have kPos := valid.kPos
  have degrees : 2 * e.s ≤ e.n - 1 := by omega
  have small : ∀ j, (shiftedCoeff m (2 * e.s) j).toNat < 2 ^ f.r := by
    intro j
    rw [unit]
    split
    · exact field.one_lt
    · exact Nat.two_pow_pos f.r
  have idle : (downTo (e.n - 1) (2 * e.s + 1)).foldlM (parityStepC f e)
      (List.replicate (2 * e.s) 0 ++ m, { mulCalls := 0, active := 0 }) =
        .ok (List.replicate (2 * e.s) 0 ++ m, { mulCalls := 0, active := 0 }) := by
    refine parityLoopC_of_zeros _ fun i hi => ?_
    obtain ⟨above, top⟩ := mem_downTo.mp hi
    rw [valid.start_entry len (mem_downTo.mpr ⟨by omega, top⟩), unit, if_neg (by omega)]
  obtain ⟨buf, last, -, -⟩ := field.parityStep_cancels (valid.gen_eq field) small le_rfl
    (by rw [List.length_append, List.length_replicate]; omega)
  have leading := valid.start_entry len (mem_downTo.mpr ⟨le_rfl, degrees⟩)
  rw [unit, if_pos rfl] at leading
  have lastC := parityStepC_of_nonzero { mulCalls := 0, active := 0 } leading (by decide) last
  rw [Counts.addActive, Nat.mul_one, Nat.zero_add] at lastC
  refine ⟨buf.take (2 * e.s), bind_eq_ok.mpr ⟨_, parityStart_eq total len, bind_eq_ok.mpr
    ⟨(buf, { mulCalls := 2 * e.s, active := 1 }), ?_, rfl⟩⟩⟩
  rw [downTo_snoc degrees, List.foldlM_append]
  exact bind_eq_ok.mpr ⟨_, idle, bind_eq_ok.mpr ⟨_, lastC, rfl⟩⟩

end Messages

/-- Settles O53: a counting loop follows its loop; step i of GenBuild makes i - 1 calls, a step of ParityDivide 2S or
none. -/
theorem operationCountsAreExact : Obligations.OperationCountsAreExact := by
  refine ⟨fun _ _ _ => genBuildC_of_genBuild, fun _ _ _ _ => parityDivideC_of_parityDivide,
    fun cfg f e fieldValid prim valid => ⟨?_, ?_⟩⟩
  · exact valid.parityDivideC_of_zero_coeffs List.length_replicate fun i => shiftedCoeff_zeros _ e.k i
  · have unitLen : (1 :: List.replicate (e.k - 1) (0 : Elem)).length = e.k := by
      rw [List.length_cons, List.length_replicate, Nat.sub_add_cancel valid.kPos]
    exact valid.parityDivideC_of_unit_coeffs unitLen (fieldValid.builtField prim) fun i => shiftedCoeff_unit _ _ i

end Sys2Proof.Machine
